-- ==== Sys2Proof/Word.lean ====
section
/-! DEFINITION. The word types of the core (`spec/00_scope.md` R5, R8; `spec/10_state.md` R11). -/

namespace Sys2Proof

/-- `XLEN` = 32: a register, the pc, an address and an instruction word are 32 bits wide (R5). -/
abbrev Word := BitVec 32

/-- One byte of memory (R23). -/
abbrev Byte := BitVec 8

/-- A register index: a 5-bit field, so every value names one of the 32 registers (R11). -/
abbrev Reg := BitVec 5

end Sys2Proof
end

