-- ==== Sys2Proof/Config.lean ====
section
/-! DEFINITION. The implementation parameters of R5 (`spec/00_scope.md`): what is fixed for the machine and the one
value the spec leaves free. -/

namespace Sys2Proof.Config

/-- The two readings of the 16-bit immediate of `lw` and `sw` (parameter `LS_IMM_EXT`, R5, D5). -/
inductive ImmExt where
  | sign
  | zero
  deriving DecidableEq, Repr

/-- `MEM_SIZE` = 1 MiB; the byte addresses are `0 .. MEM_SIZE - 1` (R5, R23, D4). -/
def memSize : Nat := 0x100000

/-- `LS_IMM_EXT`, whose value in this spec is `sign` (R5, R58, R130, D5; `90_conflicts.md` C1). -/
def lsImmExt : ImmExt := .sign

/-- `RESET_PC`. DESIGN CHOICE (notes/assumptions/1.md): the spec gives no number (R29, D1); the model takes 0. -/
def resetPc : Word := 0#32

/-- `REG_RESET`. Register 0 is 0 (R26, derived by the spec). DESIGN CHOICE (notes/assumptions/2.md): registers 1 to 31
are open in the spec (R26, D3); the model takes the all-zeros default that R26 and D3 offer as an assumed one. -/
def regReset : Vector Word 32 := Vector.replicate 32 0#32

/-- `MEM_INIT`: the byte at each address before anything has written it. It is unknown and must not be assumed to be
zero (R29, D2), so it is a FREE VALUE: a constant with no body (notes/assumptions/3.md). -/
opaque memInit : Nat → Byte

end Sys2Proof.Config
end

