-- ==== Sys2Proof/Syntax.lean ====
section
/-! DEFINITION. The instructions: one constructor per row of `spec/opcode_table.json`, with the operands that
`decode` of R65 (`spec/30_encoding.md`) gives it, in R65's order. -/

namespace Sys2Proof

/-- A decoded instruction (R65). Fields an instruction ignores (R59) are no operands of it. -/
inductive Instr where
  /-- `add rd, rs, rt` (R101) -/
  | add (rd rs rt : Reg)
  /-- `sub rd, rs, rt` (R102) -/
  | sub (rd rs rt : Reg)
  /-- `and rd, rs, rt` (R103) -/
  | and (rd rs rt : Reg)
  /-- `or rd, rs, rt` (R104) -/
  | or (rd rs rt : Reg)
  /-- `nor rd, rs, rt` (R105) -/
  | nor (rd rs rt : Reg)
  /-- `sll rd, rt, shamt` (R110) -/
  | sll (rd rt : Reg) (shamt : BitVec 5)
  /-- `srl rd, rt, shamt` (R111) -/
  | srl (rd rt : Reg) (shamt : BitVec 5)
  /-- `sra rd, rt, shamt` (R112) -/
  | sra (rd rt : Reg) (shamt : BitVec 5)
  /-- `slt rd, rs, rt` (R106) -/
  | slt (rd rs rt : Reg)
  /-- `jr rs` (R153) -/
  | jr (rs : Reg)
  /-- `addi rt, rs, imm` (R120) -/
  | addi (rt rs : Reg) (imm : BitVec 16)
  /-- `andi rt, rs, imm` (R121) -/
  | andi (rt rs : Reg) (imm : BitVec 16)
  /-- `ori rt, rs, imm` (R122) -/
  | ori (rt rs : Reg) (imm : BitVec 16)
  /-- `slti rt, rs, imm` (R123) -/
  | slti (rt rs : Reg) (imm : BitVec 16)
  /-- `lw rt, imm(rs)` (R131) -/
  | lw (rt rs : Reg) (imm : BitVec 16)
  /-- `sw rt, imm(rs)` (R132) -/
  | sw (rt rs : Reg) (imm : BitVec 16)
  /-- `beq rs, rt, off` (R141) -/
  | beq (rs rt : Reg) (imm : BitVec 16)
  /-- `bne rs, rt, off` (R142) -/
  | bne (rs rt : Reg) (imm : BitVec 16)
  /-- `j target` (R151) -/
  | j (target : BitVec 26)
  /-- `jal target` (R152) -/
  | jal (target : BitVec 26)
  /-- `halt`, the sentinel word (R160) -/
  | halt
  deriving DecidableEq, Repr

end Sys2Proof
end

