-- ==== Sys2Proof/WellFormed.lean ====
section
/-! DEFINITION. Well-formedness: the width of each instruction field (R51, R52), and the room a program needs in
memory (R191). -/

namespace Sys2Proof

/-- The number `n` fits a field of `width` bits (the width column of R51 and R52). -/
def fieldFits (width n : Nat) : Bool := decide (n < 2 ^ width)

/-- Every operand fits its field. R11 calls an out-of-range operand "structurally impossible", and so it is here: the
operand types carry the bound, and the law `Instr.wellFormed_all` says that every instruction passes. -/
def Instr.wellFormed : Instr → Bool
  | .add rd rs rt | .sub rd rs rt | .and rd rs rt | .or rd rs rt | .nor rd rs rt | .slt rd rs rt =>
      fieldFits 5 rd.toNat && fieldFits 5 rs.toNat && fieldFits 5 rt.toNat
  | .sll rd rt shamt | .srl rd rt shamt | .sra rd rt shamt =>
      fieldFits 5 rd.toNat && fieldFits 5 rt.toNat && fieldFits 5 shamt.toNat
  | .jr rs => fieldFits 5 rs.toNat
  | .addi rt rs imm | .andi rt rs imm | .ori rt rs imm | .slti rt rs imm | .lw rt rs imm | .sw rt rs imm =>
      fieldFits 5 rt.toNat && fieldFits 5 rs.toNat && fieldFits 16 imm.toNat
  | .beq rs rt imm | .bne rs rt imm =>
      fieldFits 5 rs.toNat && fieldFits 5 rt.toNat && fieldFits 16 imm.toNat
  | .j target | .jal target => fieldFits 26 target.toNat
  | .halt => true

/-- A program of `n` words and its appended halt word fit in memory from `base`:
`RESET_PC + 4*(n+1) <= MEM_SIZE` (R191, D1). -/
def programFits (base : Word) (n : Nat) : Bool := decide (base.toNat + 4 * (n + 1) ≤ Config.memSize)

end Sys2Proof
end

