-- ==== Sys2Proof/Decode.lean ====
section
/-! DEFINITION. The decoder block of `spec/30_encoding.md` (halt detector, field extractor, format classifier,
dispatcher), and after it the encoder written from the same encodings. -/

namespace Sys2Proof

/-- The halt sentinel (R54, R160). -/
def haltWord : Word := 0xFFFFFFFF#32

/-! The field extractor of R51: total, all eight fields of every word. -/

/-- `word[31:26]` (R51) -/
def opcodeOf (w : Word) : BitVec 6 := w.extractLsb' 26 6
/-- `word[25:21]` (R51) -/
def rsOf (w : Word) : Reg := w.extractLsb' 21 5
/-- `word[20:16]` (R51) -/
def rtOf (w : Word) : Reg := w.extractLsb' 16 5
/-- `word[15:11]` (R51) -/
def rdOf (w : Word) : Reg := w.extractLsb' 11 5
/-- `word[10:6]` (R51) -/
def shamtOf (w : Word) : BitVec 5 := w.extractLsb' 6 5
/-- `word[5:0]` (R51) -/
def functOf (w : Word) : BitVec 6 := w.extractLsb' 0 6
/-- `word[15:0]` (R51) -/
def immOf (w : Word) : BitVec 16 := w.extractLsb' 0 16
/-- `word[25:0]` (R51) -/
def targetOf (w : Word) : BitVec 26 := w.extractLsb' 0 26

/-! Assembling a word from its fields, most significant field first (R52). -/

/-- An R-format word (R52). -/
def assembleR (opcode : BitVec 6) (rs rt rd : Reg) (shamt : BitVec 5) (funct : BitVec 6) : Word :=
  opcode ++ rs ++ rt ++ rd ++ shamt ++ funct

/-- An I-format word (R52). -/
def assembleI (opcode : BitVec 6) (rs rt : Reg) (imm : BitVec 16) : Word :=
  opcode ++ rs ++ rt ++ imm

/-- A J-format word (R52). -/
def assembleJ (opcode : BitVec 6) (target : BitVec 26) : Word :=
  opcode ++ target

/-- The four formats of R53 and R54. -/
inductive Format where
  | special
  | register
  | jump
  | immediate
  deriving DecidableEq, Repr

/-- The format classifier, halt check first (R53, R54). -/
def formatOf (w : Word) : Format :=
  if w = haltWord then .special
  else if opcodeOf w = 0x00#6 then .register
  else if opcodeOf w = 0x02#6 ∨ opcodeOf w = 0x03#6 then .jump
  else .immediate

/-- What the decoder answers (R65): an instruction, or the named rejection `Unrecognized(word)`. -/
inductive Decoded where
  | instr (i : Instr)
  /-- The word is not `0xFFFFFFFF` and no row of R55, R56 or R57 selects it (R60). -/
  | unrecognized (word : Word)
  deriving DecidableEq, Repr

/-- R-format dispatch on `funct` alone (R55); `shamt`, `rs` or `rt` and `rd` are ignored where R59 says so. -/
def decodeRegister (w : Word) : Decoded :=
  if functOf w = 0x20#6 then .instr (.add (rdOf w) (rsOf w) (rtOf w))
  else if functOf w = 0x22#6 then .instr (.sub (rdOf w) (rsOf w) (rtOf w))
  else if functOf w = 0x24#6 then .instr (.and (rdOf w) (rsOf w) (rtOf w))
  else if functOf w = 0x25#6 then .instr (.or (rdOf w) (rsOf w) (rtOf w))
  else if functOf w = 0x27#6 then .instr (.nor (rdOf w) (rsOf w) (rtOf w))
  else if functOf w = 0x2a#6 then .instr (.slt (rdOf w) (rsOf w) (rtOf w))
  else if functOf w = 0x00#6 then .instr (.sll (rdOf w) (rtOf w) (shamtOf w))
  else if functOf w = 0x02#6 then .instr (.srl (rdOf w) (rtOf w) (shamtOf w))
  else if functOf w = 0x03#6 then .instr (.sra (rdOf w) (rtOf w) (shamtOf w))
  else if functOf w = 0x08#6 then .instr (.jr (rsOf w))
  else .unrecognized w

/-- J-format dispatch on `opcode` (R57). The format classifier lets only `0x02` and `0x03` come here. -/
def decodeJump (w : Word) : Decoded :=
  if opcodeOf w = 0x02#6 then .instr (.j (targetOf w))
  else .instr (.jal (targetOf w))

/-- I-format dispatch on `opcode` (R56). -/
def decodeImmediate (w : Word) : Decoded :=
  if opcodeOf w = 0x08#6 then .instr (.addi (rtOf w) (rsOf w) (immOf w))
  else if opcodeOf w = 0x0c#6 then .instr (.andi (rtOf w) (rsOf w) (immOf w))
  else if opcodeOf w = 0x0d#6 then .instr (.ori (rtOf w) (rsOf w) (immOf w))
  else if opcodeOf w = 0x0a#6 then .instr (.slti (rtOf w) (rsOf w) (immOf w))
  else if opcodeOf w = 0x23#6 then .instr (.lw (rtOf w) (rsOf w) (immOf w))
  else if opcodeOf w = 0x2b#6 then .instr (.sw (rtOf w) (rsOf w) (immOf w))
  else if opcodeOf w = 0x04#6 then .instr (.beq (rsOf w) (rtOf w) (immOf w))
  else if opcodeOf w = 0x05#6 then .instr (.bne (rsOf w) (rtOf w) (immOf w))
  else .unrecognized w

/-- The decoder: a total function of the word that reads no state (R65). -/
def decode (w : Word) : Decoded :=
  match formatOf w with
  | .special => .instr .halt
  | .register => decodeRegister w
  | .jump => decodeJump w
  | .immediate => decodeImmediate w

/-- The word made of four bytes, the byte at the lowest address most significant (R31, R33). -/
def wordOfBytes (b0 b1 b2 b3 : Byte) : Word := b0 ++ b1 ++ b2 ++ b3

/-- The byte of `v` that a big-endian store puts at offset `k` (0 to 3) from the word's address (R32). -/
def byteOfWord (v : Word) (k : Nat) : Byte := v.extractLsb' (8 * (3 - k)) 8

/-- The decoder on the four bytes of an instruction in memory order (R33, R50). -/
def decodeBytes (b0 b1 b2 b3 : Byte) : Decoded := decode (wordOfBytes b0 b1 b2 b3)

/-! The encoder (R52 with the opcode and funct values of R55 to R57). R59 lets ignored fields hold
any value. DESIGN CHOICE (notes/assumptions/10.md): the encoder puts 0 there, as R113 says an assembler does in the `rs`
field of a shift. -/

/-- The words of an instruction: always exactly one (R50). -/
def encode : Instr → Word
  | .add rd rs rt => assembleR 0x00#6 rs rt rd 0#5 0x20#6
  | .sub rd rs rt => assembleR 0x00#6 rs rt rd 0#5 0x22#6
  | .and rd rs rt => assembleR 0x00#6 rs rt rd 0#5 0x24#6
  | .or rd rs rt => assembleR 0x00#6 rs rt rd 0#5 0x25#6
  | .nor rd rs rt => assembleR 0x00#6 rs rt rd 0#5 0x27#6
  | .sll rd rt shamt => assembleR 0x00#6 0#5 rt rd shamt 0x00#6
  | .srl rd rt shamt => assembleR 0x00#6 0#5 rt rd shamt 0x02#6
  | .sra rd rt shamt => assembleR 0x00#6 0#5 rt rd shamt 0x03#6
  | .slt rd rs rt => assembleR 0x00#6 rs rt rd 0#5 0x2a#6
  | .jr rs => assembleR 0x00#6 rs 0#5 0#5 0#5 0x08#6
  | .addi rt rs imm => assembleI 0x08#6 rs rt imm
  | .andi rt rs imm => assembleI 0x0c#6 rs rt imm
  | .ori rt rs imm => assembleI 0x0d#6 rs rt imm
  | .slti rt rs imm => assembleI 0x0a#6 rs rt imm
  | .lw rt rs imm => assembleI 0x23#6 rs rt imm
  | .sw rt rs imm => assembleI 0x2b#6 rs rt imm
  | .beq rs rt imm => assembleI 0x04#6 rs rt imm
  | .bne rs rt imm => assembleI 0x05#6 rs rt imm
  | .j target => assembleJ 0x02#6 target
  | .jal target => assembleJ 0x03#6 target
  | .halt => haltWord

/-- The `mask` column of `opcode_table.json`: the bits that select the instruction (R59). -/
def Instr.tableMask : Instr → Word
  | .add .. | .sub .. | .and .. | .or .. | .nor .. | .slt .. | .sll .. | .srl .. | .sra .. | .jr .. => 0xFC00003F#32
  | .addi .. | .andi .. | .ori .. | .slti .. | .lw .. | .sw .. | .beq .. | .bne .. | .j .. | .jal .. => 0xFC000000#32
  | .halt => 0xFFFFFFFF#32

/-- The `match` column of `opcode_table.json`. -/
def Instr.tableMatch : Instr → Word
  | .add .. => 0x00000020#32
  | .sub .. => 0x00000022#32
  | .and .. => 0x00000024#32
  | .or .. => 0x00000025#32
  | .nor .. => 0x00000027#32
  | .sll .. => 0x00000000#32
  | .srl .. => 0x00000002#32
  | .sra .. => 0x00000003#32
  | .slt .. => 0x0000002A#32
  | .jr .. => 0x00000008#32
  | .addi .. => 0x20000000#32
  | .andi .. => 0x30000000#32
  | .ori .. => 0x34000000#32
  | .slti .. => 0x28000000#32
  | .lw .. => 0x8C000000#32
  | .sw .. => 0xAC000000#32
  | .beq .. => 0x10000000#32
  | .bne .. => 0x14000000#32
  | .j .. => 0x08000000#32
  | .jal .. => 0x0C000000#32
  | .halt => 0xFFFFFFFF#32

/-- The bits the decoder reads of an instruction's word: all but the ignored fields of R59 (`shamt` of the register
ALU instructions; `rs` of the shifts; `rt`, `rd` and `shamt` of `jr`). -/
def Instr.usedMask : Instr → Word
  | .add .. | .sub .. | .and .. | .or .. | .nor .. | .slt .. => 0xFFFFF83F#32
  | .sll .. | .srl .. | .sra .. => 0xFC1FFFFF#32
  | .jr .. => 0xFFE0003F#32
  | .addi .. | .andi .. | .ori .. | .slti .. | .lw .. | .sw .. | .beq .. | .bne .. | .j .. | .jal .. | .halt =>
      0xFFFFFFFF#32

/-- The decoder on an instruction whose bits are `w`, numbered as `opcode_table.json` numbers them (bit 0 the least
significant bit of the one 32-bit word). The word is laid out big-endian and its bytes are given to `decodeBytes`. -/
def decodeTableWord (nbits w : Nat) : Option Instr :=
  let word : Word := BitVec.ofNat 32 (w % 2 ^ nbits)
  match decodeBytes (byteOfWord word 0) (byteOfWord word 1) (byteOfWord word 2) (byteOfWord word 3) with
  | .instr i => some i
  | .unrecognized _ => none

end Sys2Proof
end

