-- ==== Sys2Proof/Machine/State.lean ====
section
/-! DEFINITION. The architectural state (`spec/10_state.md` R10, R25), why a step can stop, and the state after reset
(R26, R29, R190). -/

namespace Sys2Proof.Machine

/-- Which access left memory: the `kind` of `OutOfBounds` (R36, R171, R172). -/
inductive AccessKind where
  | fetch
  | load
  | store
  deriving DecidableEq, Repr

/-- The one fault of the spec, with the 32-bit address of the first byte of the access (R172, D7). -/
inductive AccessFault where
  | outOfBounds (kind : AccessKind) (addr : Word)
  deriving DecidableEq, Repr

/-- The run status that the spec adds to the architectural state (R25, R84, R171). No instruction can read it. -/
inductive Status where
  /-- The core steps. -/
  | running
  /-- The halt word was fetched (R160). -/
  | halted
  /-- An unrecognized word was fetched; its 32 bits are recorded (R161). -/
  | illegalInstruction (word : Word)
  /-- An access left memory (R172). -/
  | fault (f : AccessFault)
  deriving DecidableEq, Repr

/-- Why a step stops the machine. In this model a step stops only where the spec says that no step is taken: in a state
whose run has ended (R84, R88). Each constructor repeats the cause that the state already records. -/
inductive Fault where
  /-- Raised by `step` alone, at a state whose status is `halted` (R88). Safe: the spec gives no further step (D9). -/
  | halted
  /-- Raised by `step` alone, at a state whose status is `illegalInstruction` (R88). Safe: the spec gives no further
  step (D9). -/
  | illegalInstruction (word : Word)
  /-- Raised by `step` alone, at a state whose status is `fault (outOfBounds kind addr)` (R88, R172). Safe: the machine
  stops where the source's behaviour is undefined (D7). -/
  | outOfBounds (kind : AccessKind) (addr : Word)
  deriving DecidableEq, Repr

/-- Why a step gives no meaning. -/
inductive Refusal where
  /-- Raised by an arm of `exec` whose instruction has no meaning yet; no arm does so in this model. Safe: a refused
  step proves nothing. -/
  | notModelled (mnemonic : String)
  deriving DecidableEq, Repr

/-- The bytes of memory that the host or the program has written: (address, byte) pairs, addresses strictly rising and
below `MEM_SIZE`. What an address that is not listed holds is `Memory.unlisted` (Machine/Ops.lean). -/
abbrev Memory := List Host.Cell

/-- Everything the machine remembers (R10: registers, pc and memory are all of it), and the spec's run status (R25). -/
structure State where
  /-- The register file: 32 words; register 0 is an ordinary one (R11, R13). -/
  regs : Vector Word 32
  /-- The program counter, byte-addressed (R16). Between steps it is the address of the next instruction; the Executor
  sees it already advanced by 4 (R17). -/
  pc : Word
  /-- The byte-addressable memory shared by fetch and data (R23, R30). -/
  mem : Memory
  /-- Whether the run goes on, and if not, why it ended (R25). -/
  status : Status
  deriving DecidableEq, Repr

/-- The reset state for given values of the open parameters `RESET_PC` and `REG_RESET` (R190): the memory is `MEM_INIT`
everywhere, so nothing is listed; the status is `Running`. -/
def State.resetWith (resetPc : Word) (regReset : Vector Word 32) : State :=
  { regs := regReset, pc := resetPc, mem := [], status := .running }

/-- The machine right after reset, before the loader runs (R26, R29, R190), with the values the model names for the
open parameters (notes/assumptions/1.md and 2.md). -/
def State.reset : State := State.resetWith Config.resetPc Config.regReset

end Sys2Proof.Machine
end

