-- ==== Sys2Proof/Machine/Ops.lean ====
section
/-! DEFINITION. The named operations over memory, registers, pc and run status that every meaning uses, and the one
operation that ends a run. -/

namespace Sys2Proof.Machine

/-! ### Memory, byte by byte (R23, R30) -/

/-- What an address that nothing has written holds: `MEM_INIT`, a free value (R29, D2; notes/assumptions/3.md). -/
def Memory.unlisted (a : Nat) : Byte := Config.memInit a

/-- The byte listed for an address, if one is. -/
def Memory.listed? : Memory → Nat → Option Byte
  | [], _ => none
  | (b, v) :: rest, a => if a = b then some v else Memory.listed? rest a

/-- `Mem[a]`: the most recent byte written there, or `MEM_INIT` if none was (R40 (c)). -/
def Memory.byteAt (m : Memory) (a : Nat) : Byte := (m.listed? a).getD (Memory.unlisted a)

/-- `Mem[a] <- v`, keeping the addresses strictly rising. -/
def Memory.setByte : Memory → Nat → Byte → Memory
  | [], a, v => [(a, v)]
  | (b, w) :: rest, a, v =>
    if a < b then (a, v) :: (b, w) :: rest
    else if a = b then (a, v) :: rest
    else (b, w) :: Memory.setByte rest a v

/-- The canonical form: addresses strictly rising, every address one that exists (R23). An unlisted address has no
value in the list, so no entry repeats one (notes/assumptions/4.md). -/
abbrev Memory.wf (m : Memory) : Prop :=
  m.Pairwise (fun c d => c.1 < d.1) ∧ ∀ c ∈ m, c.1 < Config.memSize

/-! ### Words in memory (R31, R32): the only access width is 4 bytes, big-endian, at any byte address (R34, R35) -/

/-- The four bytes at `a`, the lowest address most significant (R31). -/
def Memory.wordAt (m : Memory) (a : Nat) : Word :=
  wordOfBytes (m.byteAt a) (m.byteAt (a + 1)) (m.byteAt (a + 2)) (m.byteAt (a + 3))

/-- The four bytes of `v` stored at `a .. a+3`, the most significant at `a` (R32). -/
def Memory.setWord (m : Memory) (a : Nat) (v : Word) : Memory :=
  (((m.setByte a (byteOfWord v 0)).setByte (a + 1) (byteOfWord v 1)).setByte (a + 2) (byteOfWord v 2)).setByte
    (a + 3) (byteOfWord v 3)

/-- The 4-byte access at `addr` is in range: `addr <= MEM_SIZE - 4` (R36, D7). -/
abbrev InRange (addr : Word) : Prop := addr.toNat ≤ Config.memSize - 4

/-! ### Registers and pc -/

/-- `x[r]` (R9, R11). Register 0 is read like any other (R13). -/
def State.reg (s : State) (r : Reg) : Word := s.regs[r.toNat]'r.isLt

/-- `x[r] <- v` (R9, R11). Register 0 is written like any other (R13). -/
def State.setReg (s : State) (r : Reg) (v : Word) : State := { s with regs := s.regs.set r.toNat v r.isLt }

/-- `pc <- v` (R9). -/
def State.setPc (s : State) (v : Word) : State := { s with pc := v }

/-- The unconditional increment between fetch and execution, modulo `2^32` (R82, R19). -/
def State.advance (s : State) : State := s.setPc (s.pc + 4#32)

/-! ### The load/store unit (R31, R32, R36) and the fetch (R33, R81) -/

/-- `MemRead(addr, 4)`: the word at an in-range address; nothing where the access leaves memory (R31, R36). -/
def State.memRead (s : State) (addr : Word) : Option Word :=
  if InRange addr then some (s.mem.wordAt addr.toNat) else none

/-- `MemWrite(addr, 4, v)`: the state with the word stored at an in-range address; nothing where the access leaves
memory, and then no byte is written (R32, R36). -/
def State.memWrite (s : State) (addr : Word) (v : Word) : Option State :=
  if InRange addr then some { s with mem := s.mem.setWord addr.toNat v } else none

/-- The fetch: `MemRead(pc, 4)` on the same memory that `sw` writes (R33, R43, R81). -/
def State.fetch (s : State) : Option Word := s.memRead s.pc

/-! ### Ending a run

The hardware has no exception entry and no return from one: nothing is saved, no mode changes and control goes nowhere
(R170, R174, R175). What it has is the end of the run, recorded in the status (R25, R80, R171). -/

/-- A stop or a fault: the status records the cause; registers, memory and pc stay as they are (R86, R171, R174). -/
def State.stop (s : State) (cause : Status) : State := { s with status := cause }

/-- `raise OutOfBounds(kind, addr)`: the run ends with the fault in its status and no part of the access is performed
(R9, R36, R172). -/
def State.raiseOutOfBounds (s : State) (kind : AccessKind) (addr : Word) : State :=
  s.stop (.fault (.outOfBounds kind addr))

/-- Why no step is taken from a state whose run has ended; nothing where the run goes on (R84, R88). -/
def State.runEnd? (s : State) : Option Fault :=
  match s.status with
  | .running => none
  | .halted => some .halted
  | .illegalInstruction w => some (.illegalInstruction w)
  | .fault (.outOfBounds kind addr) => some (.outOfBounds kind addr)

/-- The word `v` placed where the next step fetches, with the run going on: what `State.withFetchWord` sets. A pc out
of range has no place in memory, and memory is then left as it is. -/
def State.placeAtPc (s : State) (v : Word) : State :=
  { s with mem := if InRange s.pc then s.mem.setWord s.pc.toNat v else s.mem, status := .running }

end Sys2Proof.Machine
end

