-- ==== Sys2Proof/Machine/Flags.lean ====
section
/-! DEFINITION. The hardware has no flags (R20): a comparison delivers its result in a general register (slt, slti) or
acts on the pc (beq, bne). These are the comparisons. -/

namespace Sys2Proof.Machine

/-- `signed(a) < signed(b)`, exact, not the sign of a wrapped difference (R8, R100, R106). -/
def signedLess (a b : Word) : Bool := decide (a.toInt < b.toInt)

/-- Equality of all 32 bits (R8, R141). -/
def equalWords (a b : Word) : Bool := decide (a = b)

/-- A comparison's result as a whole register: 1 or 0 (R100, R106). -/
def wordOfBool (b : Bool) : Word := if b then 1#32 else 0#32

end Sys2Proof.Machine
end

