-- ==== Sys2Proof/Machine/Operands.lean ====
section
/-! DEFINITION. How each instruction turns its immediate bits into an operand (R58), the one addressing mode (R130)
and the targets of branches and jumps (R140, R150). -/

namespace Sys2Proof.Machine

/-- `sext_16`: bit 15 replicated into bits 16 to 31 (R9, R124). -/
def sext16 (imm : BitVec 16) : Word := imm.signExtend 32

/-- `zext_16`: bits 16 to 31 filled with zero (R9, R124). -/
def zext16 (imm : BitVec 16) : Word := imm.setWidth 32

/-- The immediate of `lw` and `sw` under one of the two readings of `LS_IMM_EXT` (R5, R130). -/
def extendWith (e : Config.ImmExt) (imm : BitVec 16) : Word :=
  match e with
  | .sign => sext16 imm
  | .zero => zext16 imm

/-- `base + imm` modulo `2^32` under one of the two readings (R37, R130). -/
def addressWith (e : Config.ImmExt) (base : Word) (imm : BitVec 16) : Word := base + extendWith e imm

/-- The effective address `EA` of `lw` and `sw` (R130), with `LS_IMM_EXT = sign` (D5; notes/assumptions/5.md). The
base register is only read. -/
def State.effectiveAddress (s : State) (rs : Reg) (imm : BitVec 16) : Word :=
  addressWith Config.lsImmExt (s.reg rs) imm

/-- `BranchTarget = (pcf + (sext_16(imm) << 2)) mod 2^32` (R140). -/
def branchTarget (pcf : Word) (imm : BitVec 16) : Word := pcf + (sext16 imm <<< 2)

/-- `JumpTarget = (pcf & 0xF000_0000) | (target << 2)` (R150). -/
def jumpTarget (pcf : Word) (target : BitVec 26) : Word := (pcf &&& 0xF0000000#32) ||| (target.setWidth 32 <<< 2)

end Sys2Proof.Machine
end

