-- ==== Sys2Proof/Machine/Alu.lean ====
section
/-! DEFINITION. The ALU of R100 (`spec/41_alu_register.md`): a pure function of an operation and two 32-bit operands,
and for the shifts of the 5-bit `shamt`, with one 32-bit result and no other output. -/

namespace Sys2Proof.Machine

/-- The nine ALU operations of R100. -/
inductive AluOp where
  | add
  | sub
  | and
  | or
  | nor
  | slt
  | sll
  | srl
  | sra
  deriving DecidableEq, Repr

/-- The loop of R112: `shamt` times a logical shift by 1 with the original sign bit put back into bit 31. -/
def sraLoop (signBit : Word) : Nat → Word → Word
  | 0, v => v
  | n + 1, v => sraLoop signBit n ((signBit <<< 31) ||| (v >>> 1))

/-- Shift right arithmetic as R112 requires it to be built: the sign bit is taken once, from the original operand. -/
def shiftRightArithmetic (v : Word) (shamt : Nat) : Word := sraLoop (v >>> 31) shamt v

/-- The ALU (R100). Operand `a` is not used by the shifts, `shamt` by nothing else. -/
def alu (op : AluOp) (a b : Word) (shamt : BitVec 5) : Word :=
  match op with
  | .add => a + b
  | .sub => a - b
  | .and => a &&& b
  | .or => a ||| b
  | .nor => ~~~(a ||| b)
  | .slt => wordOfBool (signedLess a b)
  | .sll => b <<< shamt.toNat
  | .srl => b >>> shamt.toNat
  | .sra => shiftRightArithmetic b shamt.toNat

/-- An R-format ALU instruction: `x[rd] <- op(x[rs], x[rt])`; both sources are read before the write (R14, D16). -/
def aluRegister (op : AluOp) (rd rs rt : Reg) (s : State) : State :=
  s.setReg rd (alu op (s.reg rs) (s.reg rt) 0#5)

/-- A shift: `x[rd] <- op(x[rt], shamt)`; the `rs` field takes no part (R113). -/
def aluShift (op : AluOp) (rd rt : Reg) (shamt : BitVec 5) (s : State) : State :=
  s.setReg rd (alu op 0#32 (s.reg rt) shamt)

/-- An I-format ALU instruction: `x[rt] <- op(x[rs], b)` for the extended immediate `b` (R100, R124). -/
def aluImmediate (op : AluOp) (rt rs : Reg) (b : Word) (s : State) : State :=
  s.setReg rt (alu op (s.reg rs) b 0#5)

end Sys2Proof.Machine
end

