-- ==== Sys2Proof/Machine/AluImmediate.lean ====
section
/-! DEFINITION. The meanings of addi, andi, ori and slti (`spec/43_alu_immediate.md`): sign extension for addi and
slti, zero extension for andi and ori (R124). -/

namespace Sys2Proof.Machine

/-- R120: `x[rt] <- (x[rs] + sext_16(imm)) mod 2^32`. -/
def execAddi (rt rs : Reg) (imm : BitVec 16) (s : State) : Host.Outcome State Fault Refusal :=
  .next (aluImmediate .add rt rs (sext16 imm) s)

/-- R121: `x[rt] <- x[rs] & zext_16(imm)`. -/
def execAndi (rt rs : Reg) (imm : BitVec 16) (s : State) : Host.Outcome State Fault Refusal :=
  .next (aluImmediate .and rt rs (zext16 imm) s)

/-- R122: `x[rt] <- x[rs] | zext_16(imm)`. -/
def execOri (rt rs : Reg) (imm : BitVec 16) (s : State) : Host.Outcome State Fault Refusal :=
  .next (aluImmediate .or rt rs (zext16 imm) s)

/-- R123: `x[rt] <- 1` if `signed(x[rs]) < signed(sext_16(imm))`, else 0. -/
def execSlti (rt rs : Reg) (imm : BitVec 16) (s : State) : Host.Outcome State Fault Refusal :=
  .next (aluImmediate .slt rt rs (sext16 imm) s)

end Sys2Proof.Machine
end

