-- ==== Sys2Proof/Machine/AluRegister.lean ====
section
/-! DEFINITION. The meanings of add, sub, and, or, nor and slt (`spec/41_alu_register.md`). The state they are given
has its pc already advanced (R17), so `pc = pcf` is left alone; none traps (R183). -/

namespace Sys2Proof.Machine

/-- R101: `x[rd] <- (x[rs] + x[rt]) mod 2^32`. -/
def execAdd (rd rs rt : Reg) (s : State) : Host.Outcome State Fault Refusal := .next (aluRegister .add rd rs rt s)

/-- R102: `x[rd] <- (x[rs] - x[rt]) mod 2^32`. -/
def execSub (rd rs rt : Reg) (s : State) : Host.Outcome State Fault Refusal := .next (aluRegister .sub rd rs rt s)

/-- R103: `x[rd] <- x[rs] & x[rt]`. -/
def execAnd (rd rs rt : Reg) (s : State) : Host.Outcome State Fault Refusal := .next (aluRegister .and rd rs rt s)

/-- R104: `x[rd] <- x[rs] | x[rt]`. -/
def execOr (rd rs rt : Reg) (s : State) : Host.Outcome State Fault Refusal := .next (aluRegister .or rd rs rt s)

/-- R105: `x[rd] <- ~(x[rs] | x[rt])`, all 32 bits inverted. -/
def execNor (rd rs rt : Reg) (s : State) : Host.Outcome State Fault Refusal := .next (aluRegister .nor rd rs rt s)

/-- R106: `x[rd] <- 1` if `signed(x[rs]) < signed(x[rt])`, else 0. -/
def execSlt (rd rs rt : Reg) (s : State) : Host.Outcome State Fault Refusal := .next (aluRegister .slt rd rs rt s)

end Sys2Proof.Machine
end

