-- ==== Sys2Proof/Machine/Branch.lean ====
section
/-! DEFINITION. The meanings of beq and bne (`spec/45_branch.md`). `s.pc` is `pcf` (R17); there is no delay slot
(R194). -/

namespace Sys2Proof.Machine

/-- A conditional branch: `pc <- BranchTarget` where it is taken, else `pc` stays `pcf` (R140). -/
def branchIf (taken : Bool) (imm : BitVec 16) (s : State) : State :=
  if taken then s.setPc (branchTarget s.pc imm) else s

/-- R141: taken if `x[rs] == x[rt]`. -/
def execBeq (rs rt : Reg) (imm : BitVec 16) (s : State) : Host.Outcome State Fault Refusal :=
  .next (branchIf (equalWords (s.reg rs) (s.reg rt)) imm s)

/-- R142: taken if `x[rs] != x[rt]`. -/
def execBne (rs rt : Reg) (imm : BitVec 16) (s : State) : Host.Outcome State Fault Refusal :=
  .next (branchIf (!equalWords (s.reg rs) (s.reg rt)) imm s)

end Sys2Proof.Machine
end

