-- ==== Sys2Proof/Machine/Halt.lean ====
section
/-! DEFINITION. The halt word and the unrecognized words (`spec/47_halt_and_unrecognized.md`): the run ends, registers
and memory are unchanged, `pc` stays `pcf` (R86, R171). -/

namespace Sys2Proof.Machine

/-- R160: `stop Halted`. -/
def execHalt (s : State) : Host.Outcome State Fault Refusal := .next (s.stop .halted)

/-- R161: `stop IllegalInstruction(word)`, for a word the decoder does not recognize. -/
def execUnrecognized (word : Word) (s : State) : Host.Outcome State Fault Refusal :=
  .next (s.stop (.illegalInstruction word))

end Sys2Proof.Machine
end

