-- ==== Sys2Proof/Machine/Jump.lean ====
section
/-! DEFINITION. The meanings of jr, j and jal (`spec/46_jump.md`). `s.pc` is `pcf` (R17); there is no delay slot
(R194). -/

namespace Sys2Proof.Machine

/-- The link register `ra`, index 31 (R12, R152). -/
def linkReg : Reg := 31#5

/-- R153: `pc <- x[rs]`, copied unchanged. -/
def execJr (rs : Reg) (s : State) : Host.Outcome State Fault Refusal := .next (s.setPc (s.reg rs))

/-- R151: `pc <- JumpTarget`. -/
def execJ (target : BitVec 26) (s : State) : Host.Outcome State Fault Refusal := .next (s.setPc (jumpTarget s.pc target))

/-- R152: `x[31] <- pcf` and `pc <- JumpTarget`, both from the same `pcf`. -/
def execJal (target : BitVec 26) (s : State) : Host.Outcome State Fault Refusal :=
  .next ((s.setReg linkReg s.pc).setPc (jumpTarget s.pc target))

end Sys2Proof.Machine
end

