-- ==== Sys2Proof/Machine/LoadStore.lean ====
section
/-! DEFINITION. The meanings of lw and sw (`spec/44_load_store.md`). An access outside memory ends the run with
`OutOfBounds` in the status and nothing else changed (R36, R172). -/

namespace Sys2Proof.Machine

/-- R131: `x[rt] <- MemRead(EA, 4)`; `OutOfBounds(Load, EA)` where `EA` is out of range, `x[rt]` unchanged. -/
def execLw (rt rs : Reg) (imm : BitVec 16) (s : State) : Host.Outcome State Fault Refusal :=
  match s.memRead (s.effectiveAddress rs imm) with
  | some v => .next (s.setReg rt v)
  | none => .next (s.raiseOutOfBounds .load (s.effectiveAddress rs imm))

/-- R132: `MemWrite(EA, 4, x[rt])`; `OutOfBounds(Store, EA)` where `EA` is out of range, memory unchanged. -/
def execSw (rt rs : Reg) (imm : BitVec 16) (s : State) : Host.Outcome State Fault Refusal :=
  match s.memWrite (s.effectiveAddress rs imm) (s.reg rt) with
  | some t => .next t
  | none => .next (s.raiseOutOfBounds .store (s.effectiveAddress rs imm))

end Sys2Proof.Machine
end

