-- ==== Sys2Proof/Machine/Shift.lean ====
section
/-! DEFINITION. The meanings of sll, srl and sra (`spec/42_shift.md`). -/

namespace Sys2Proof.Machine

/-- R110: `x[rd] <- (x[rt] << shamt) mod 2^32`. -/
def execSll (rd rt : Reg) (shamt : BitVec 5) (s : State) : Host.Outcome State Fault Refusal :=
  .next (aluShift .sll rd rt shamt s)

/-- R111: `x[rd] <- floor(x[rt] / 2^shamt)`. -/
def execSrl (rd rt : Reg) (shamt : BitVec 5) (s : State) : Host.Outcome State Fault Refusal :=
  .next (aluShift .srl rd rt shamt s)

/-- R112: `x[rd] <- x[rt]` shifted right with the original sign bit replicated. -/
def execSra (rd rt : Reg) (shamt : BitVec 5) (s : State) : Host.Outcome State Fault Refusal :=
  .next (aluShift .sra rd rt shamt s)

end Sys2Proof.Machine
end

