-- ==== Sys2Proof/Machine/Step.lean ====
section
/-! DEFINITION. One pass of the Stepping Loop (`spec/40_step_cycle.md` R80), and the placing of one instruction word
where the next step fetches. -/

namespace Sys2Proof.Machine

/-- R80. From a state whose run has ended no step is taken (R84, R88). A fetch outside memory ends the run with the pc
unchanged (R81). Otherwise the pc is advanced by 4 (R82) and the Executor sees the word (R83). The order of the outcomes
is that of R173. -/
def step (s : State) : Host.Outcome State Fault Refusal :=
  match s.runEnd? with
  | some reason => .fault reason
  | none =>
    match s.fetch with
    | none => .next (s.raiseOutOfBounds .fetch s.pc)
    | some word =>
      match decode word with
      | .instr i => exec i s.advance
      | .unrecognized w => execUnrecognized w s.advance

/-- `s` with the instruction whose bits are `w` (numbered as `opcode_table.json` numbers them) stored big-endian at the
pc, so that the next step fetches it. The run status is `Running`, which the fetch needs. -/
def State.withFetchWord (s : State) (nbits w : Nat) : State := s.placeAtPc (BitVec.ofNat 32 (w % 2 ^ nbits))

end Sys2Proof.Machine
end

