-- ==== Sys2Proof/Machine/Boot.lean ====
section
/-! DEFINITION. The loader's contract toward the core (R191, `spec/70_reset_and_hazards.md`): what the host does to a
fresh machine before a run. The loader itself (files, parsing) is out of scope (R3 (b)). -/

namespace Sys2Proof.Machine

/-- Words stored big-endian one after another from a byte address (R191, R32). -/
def State.placeWords (s : State) (base : Nat) : List Word → State
  | [] => s
  | w :: rest => State.placeWords { s with mem := s.mem.setWord base w } (base + 4) rest

/-- The program and the appended halt word at `base` = `RESET_PC`, no register changed, `pc = RESET_PC` (R191, D20).
A program that does not fit is not loaded and no run starts. -/
def State.loadProgram (s : State) (base : Word) (program : List Word) : Option State :=
  if programFits base program.length then
    some ((s.placeWords base.toNat (program ++ [haltWord])).setPc base)
  else none

end Sys2Proof.Machine
end

