-- ==== Sys2Proof/Machine/Inspect.lean ====
section
/-! DEFINITION. The host's read-only inspection surface (R28, `spec/10_state.md`) and the canonical register names
(R12). Reading changes nothing: these are functions of the state that return no state. -/

namespace Sys2Proof.Machine

/-- The canonical names in index order (R12). `$zero` is an assembler's other name for `zr` (`90_conflicts.md` C4). -/
def regNames : List String :=
  ["zr", "at", "v0", "v1", "a0", "a1", "a2", "a3", "t0", "t1", "t2", "t3", "t4", "t5", "t6", "t7"] ++
  ["s0", "s1", "s2", "s3", "s4", "s5", "s6", "s7", "t8", "t9", "k0", "k1", "gp", "sp", "fp", "ra"]

/-- The name of a register (R12). -/
def regName (r : Reg) : String := regNames.getD r.toNat ""

/-- The register that a canonical name names, if it is one (R12). -/
def regOfName? (name : String) : Option Reg :=
  if regNames.idxOf name < 32 then some (BitVec.ofNat 5 (regNames.idxOf name)) else none

/-- A register read by its canonical name (R28). -/
def State.inspectReg? (s : State) (name : String) : Option Word := (regOfName? name).map s.reg

/-- The bytes `Mem[addr] .. Mem[addr+length-1]` in address order; a range that leaves memory is outside the spec (R28)
and has no reading here. -/
def State.inspectBytes? (s : State) (addr length : Nat) : Option (List Byte) :=
  if addr + length ≤ Config.memSize then some ((List.range length).map fun k => s.mem.byteAt (addr + k)) else none

end Sys2Proof.Machine
end

