-- ==== Sys2Proof/Safety.lean ====
section
/-! DEFINITION. What counts as a good end of a run (R84, R88), what an instruction may change, and the invariants, in
the terms that statements use. -/

namespace Sys2Proof.Machine

/-! ### Runs (R84, R87, R88) -/

/-- The one-bit signal of the source: continue, or stop (R25, R83). -/
def State.continues (s : State) : Bool := decide (s.status = .running)

/-- Success of a run: it ended with `Halted`, the only successful end (R88). -/
abbrev State.SuccessfulEnd (s : State) : Prop := s.status = .halted

/-- A run from `s` of at most `fuel` steps: the first state whose status is not `Running` (R84) and how many
instructions were executed, that is, how many steps continued (R87). `none` says only that the fuel ran out, which is no
outcome of the hardware (U12). -/
def runToEnd : Nat → State → Option (State × Nat)
  | fuel, s =>
    if s.continues then
      match fuel with
      | 0 => none
      | fuel + 1 =>
        match step s with
        | .next t => (runToEnd fuel t).map fun r => (r.1, if t.continues then r.2 + 1 else r.2)
        | _ => none
    else some (s, 0)

/-- `u` is reached from `s` by `n` steps that all continue: `n` executed instructions and no end of the run (R84, R87). -/
def StepsContinuing : Nat → State → State → Prop
  | 0, s, u => u = s
  | n + 1, s, u => ∃ v, step s = .next v ∧ v.status = .running ∧ StepsContinuing n v u

/-! ### What a step of the Executor may change -/

/-- Nothing but the register `rd` differs, every byte of memory included. -/
def SameButReg (s t : State) (rd : Reg) : Prop :=
  (∀ r, r ≠ rd → t.reg r = s.reg r) ∧ t.pc = s.pc ∧ t.status = s.status ∧ ∀ a, t.mem.byteAt a = s.mem.byteAt a

/-- Nothing but the pc differs. -/
def SameButPc (s t : State) : Prop :=
  (∀ r, t.reg r = s.reg r) ∧ t.status = s.status ∧ ∀ a, t.mem.byteAt a = s.mem.byteAt a

/-- Nothing but the pc and the register `rd` differs. -/
def SameButPcAndReg (s t : State) (rd : Reg) : Prop :=
  (∀ r, r ≠ rd → t.reg r = s.reg r) ∧ t.status = s.status ∧ ∀ a, t.mem.byteAt a = s.mem.byteAt a

/-- Nothing but the run status differs. -/
def SameButStatus (s t : State) : Prop :=
  (∀ r, t.reg r = s.reg r) ∧ t.pc = s.pc ∧ ∀ a, t.mem.byteAt a = s.mem.byteAt a

/-- Nothing but the four bytes at `a .. a+3` differs. -/
def SameButWord (s t : State) (a : Nat) : Prop :=
  (∀ r, t.reg r = s.reg r) ∧ t.pc = s.pc ∧ t.status = s.status ∧
    ∀ b, b < a ∨ a + 4 ≤ b → t.mem.byteAt b = s.mem.byteAt b

/-- The register an instruction writes, if any (the last column of R14's table). -/
def destination? : Instr → Option Reg
  | .add rd _ _ | .sub rd _ _ | .and rd _ _ | .or rd _ _ | .nor rd _ _ | .slt rd _ _ => some rd
  | .sll rd _ _ | .srl rd _ _ | .sra rd _ _ => some rd
  | .addi rt _ _ | .andi rt _ _ | .ori rt _ _ | .slti rt _ _ | .lw rt _ _ => some rt
  | .jal _ => some linkReg
  | .jr _ | .sw _ _ _ | .beq _ _ _ | .bne _ _ _ | .j _ | .halt => none

/-- The registers an instruction reads (the second column of R14's table). -/
def sources : Instr → List Reg
  | .add _ rs rt | .sub _ rs rt | .and _ rs rt | .or _ rs rt | .nor _ rs rt | .slt _ rs rt => [rs, rt]
  | .sll _ rt _ | .srl _ rt _ | .sra _ rt _ => [rt]
  | .jr rs => [rs]
  | .addi _ rs _ | .andi _ rs _ | .ori _ rs _ | .slti _ rs _ | .lw _ rs _ => [rs]
  | .sw rt rs _ => [rs, rt]
  | .beq rs rt _ | .bne rs rt _ => [rs, rt]
  | .j _ | .jal _ | .halt => []

/-- The instructions that may write the pc (R18). -/
def isTransfer : Instr → Bool
  | .jr _ | .beq _ _ _ | .bne _ _ _ | .j _ | .jal _ => true
  | .add _ _ _ | .sub _ _ _ | .and _ _ _ | .or _ _ _ | .nor _ _ _ | .slt _ _ _ => false
  | .sll _ _ _ | .srl _ _ _ | .sra _ _ _ => false
  | .addi _ _ _ | .andi _ _ _ | .ori _ _ _ | .slti _ _ _ | .lw _ _ _ | .sw _ _ _ | .halt => false

/-! ### Invariants -/

/-- Every field of the state that has a canonical form has it (R23). -/
abbrev State.MemoryCanonical (s : State) : Prop := s.mem.wf

/-- The state explains its own end. For `Halted` and `IllegalInstruction` the word that stopped the run stands at
`pc - 4` (R86, R171) and is what the status says. For a data fault the `lw` or `sw` stands there and its effective
address is the recorded one, outside memory. For a fetch fault the pc itself is the recorded address, outside memory
(R172). -/
def State.EndExplained (s : State) : Prop :=
  match s.status with
  | .running => True
  | .halted => s.memRead (s.pc - 4#32) = some haltWord
  | .illegalInstruction w => s.memRead (s.pc - 4#32) = some w ∧ decode w = .unrecognized w
  | .fault (.outOfBounds .fetch addr) => s.pc = addr ∧ ¬ InRange addr
  | .fault (.outOfBounds .load addr) => ¬ InRange addr ∧
      ∃ w rt rs imm, s.memRead (s.pc - 4#32) = some w ∧ decode w = .instr (.lw rt rs imm) ∧ s.effectiveAddress rs imm = addr
  | .fault (.outOfBounds .store addr) => ¬ InRange addr ∧
      ∃ w rt rs imm, s.memRead (s.pc - 4#32) = some w ∧ decode w = .instr (.sw rt rs imm) ∧ s.effectiveAddress rs imm = addr

end Sys2Proof.Machine
end

