-- ==== Sys2Proof/Certificates/Slice0/Obligations.lean ====
section
/-! DEFINITION. The statements for the provers, in the order of spec/: encoding, the instructions, memory, the step, reset
and the host's surface. The Executor's state has its pc already advanced, so `s.pc` is the spec's `pcf` wherever `exec`
is applied (R17). -/

open Sys2Proof Sys2Proof.Machine

/-! ### Encoding (`spec/30_encoding.md`) -/

/-- Words written out in the spec decode to the instructions they are written beside (R101 to R160). -/
def Obligations.SpecWordsDecode : Prop :=
  decode 0x01095020#32 = .instr (.add 10 8 9) ∧ decode 0x01095022#32 = .instr (.sub 10 8 9) ∧
  decode 0x0109502A#32 = .instr (.slt 10 8 9) ∧ decode 0x00084903#32 = .instr (.sra 9 8 4) ∧
  decode 0x20090020#32 = .instr (.addi 9 0 32) ∧ decode 0x3509FFFF#32 = .instr (.ori 9 8 0xFFFF) ∧
  decode 0x8D090008#32 = .instr (.lw 9 8 8) ∧ decode 0xAC090000#32 = .instr (.sw 9 0 0) ∧
  decode 0x1509FFFE#32 = .instr (.bne 8 9 0xFFFE) ∧ decode 0x0C000400#32 = .instr (.jal 0x400) ∧
  decode 0x03E00008#32 = .instr (.jr 31) ∧ decode 0xFFFFFFFF#32 = .instr .halt ∧
  decode 0x0000000C#32 = .unrecognized 0x0000000C#32 ∧ decode 0xFFFFFFFE#32 = .unrecognized 0xFFFFFFFE#32

/-- Encoding and then decoding gives every instruction back, with every operand at every value (R52, R55 to R57, R65). -/
def Obligations.DecodeOfEncode : Prop :=
  ∀ i : Instr, decode (encode i) = .instr i

/-- The fields of a word, put together again, are the word, in each of the three formats; so two words with the same
fields are one word (R63). -/
def Obligations.FieldsReassembleWord : Prop :=
  (∀ w : Word, assembleR (opcodeOf w) (rsOf w) (rtOf w) (rdOf w) (shamtOf w) (functOf w) = w ∧
    assembleI (opcodeOf w) (rsOf w) (rtOf w) (immOf w) = w ∧ assembleJ (opcodeOf w) (targetOf w) = w) ∧
  (∀ v w : Word, opcodeOf v = opcodeOf w → rsOf v = rsOf w → rtOf v = rtOf w → rdOf v = rdOf w →
    shamtOf v = shamtOf w → functOf v = functOf w → v = w) ∧
  (∀ v w : Word, opcodeOf v = opcodeOf w → rsOf v = rsOf w → rtOf v = rtOf w → immOf v = immOf w → v = w) ∧
  (∀ v w : Word, opcodeOf v = opcodeOf w → targetOf v = targetOf w → v = w)

/-- Decoding and then encoding gives the word back on the fields the instruction uses (R52, R65). What it gives on the
ignored fields is 0 by the model's own choice of encoder (DESIGN CHOICE, notes/assumptions/10.md): decision D10 of the spec
lets them hold any value, and only of the `rs` field of a shift does the spec say that an assembler puts 0 there. -/
def Obligations.EncodeOfDecode : Prop :=
  ∀ (w : Word) (i : Instr), decode w = .instr i → encode i = w &&& i.usedMask

/-- The decoder gives an instruction only to words of its row of the opcode table (R55 to R57, R59). -/
def Obligations.DecodedWordMatchesTable : Prop :=
  ∀ (w : Word) (i : Instr), decode w = .instr i → w &&& i.tableMask = i.tableMatch

/-- Exactly the words outside the rows of R55, R56 and R57, the halt word apart, are rejected, and each under its own
name (R60, R161). -/
def Obligations.UnrecognizedWordsExactly : Prop :=
  ∀ w : Word,
    (decode w = .unrecognized w ↔ w ≠ 0xFFFFFFFF#32 ∧
      ((opcodeOf w = 0x00#6 ∧ functOf w ∉
          [0x00#6, 0x02#6, 0x03#6, 0x08#6, 0x20#6, 0x22#6, 0x24#6, 0x25#6, 0x27#6, 0x2a#6]) ∨
        opcodeOf w ∉
          [0x00#6, 0x02#6, 0x03#6, 0x04#6, 0x05#6, 0x08#6, 0x0a#6, 0x0c#6, 0x0d#6, 0x23#6, 0x2b#6])) ∧
    ∀ v : Word, decode w = .unrecognized v → v = w

/-- Two words that differ in ignored fields only decode to the same instruction (R59, decision D10). -/
def Obligations.IgnoredFieldsDoNotMatter : Prop :=
  ∀ (v w : Word) (i : Instr), decode v = .instr i → v &&& i.usedMask = w &&& i.usedMask → decode w = .instr i

/-! ### Register-format ALU instructions (`spec/41_alu_register.md`)

That an unused field takes any value (here `shamt`, below `rs` of the shifts and `rt`, `rd`, `shamt` of jr) is said by
each encoding line and mask, and in R59 as decision D10 of the spec. -/

/-- R101, whole: the encoding with any `shamt`, the wrapping sum, and nothing else changed. -/
def Obligations.AddWritesSum : Prop :=
  (∀ (rd rs rt : Reg) (shamt : BitVec 5),
    decode (assembleR 0x00#6 rs rt rd shamt 0x20#6) = .instr (.add rd rs rt)) ∧
  ∀ (rd rs rt : Reg) (s : State), ∃ t, exec (.add rd rs rt) s = .next t ∧
    (t.reg rd).toNat = ((s.reg rs).toNat + (s.reg rt).toNat) % 2 ^ 32 ∧ SameButReg s t rd

/-- R102, whole: the encoding, the wrapping difference `x[rs] - x[rt]`, and nothing else changed. -/
def Obligations.SubWritesDifference : Prop :=
  (∀ (rd rs rt : Reg) (shamt : BitVec 5),
    decode (assembleR 0x00#6 rs rt rd shamt 0x22#6) = .instr (.sub rd rs rt)) ∧
  ∀ (rd rs rt : Reg) (s : State), ∃ t, exec (.sub rd rs rt) s = .next t ∧
    ((t.reg rd).toNat : Int) = (((s.reg rs).toNat : Int) - ((s.reg rt).toNat : Int)) % 2 ^ 32 ∧ SameButReg s t rd

/-- R103, whole: the encoding, the bitwise and, and nothing else changed. -/
def Obligations.AndWritesConjunction : Prop :=
  (∀ (rd rs rt : Reg) (shamt : BitVec 5),
    decode (assembleR 0x00#6 rs rt rd shamt 0x24#6) = .instr (.and rd rs rt)) ∧
  ∀ (rd rs rt : Reg) (s : State), ∃ t, exec (.and rd rs rt) s = .next t ∧
    (∀ k, k < 32 → (t.reg rd).getLsbD k = ((s.reg rs).getLsbD k && (s.reg rt).getLsbD k)) ∧ SameButReg s t rd

/-- R104, whole: the encoding, the bitwise or, and nothing else changed. -/
def Obligations.OrWritesDisjunction : Prop :=
  (∀ (rd rs rt : Reg) (shamt : BitVec 5),
    decode (assembleR 0x00#6 rs rt rd shamt 0x25#6) = .instr (.or rd rs rt)) ∧
  ∀ (rd rs rt : Reg) (s : State), ∃ t, exec (.or rd rs rt) s = .next t ∧
    (∀ k, k < 32 → (t.reg rd).getLsbD k = ((s.reg rs).getLsbD k || (s.reg rt).getLsbD k)) ∧ SameButReg s t rd

/-- R105, whole: the encoding, every one of the 32 bits of the or inverted, and nothing else changed. -/
def Obligations.NorWritesInvertedDisjunction : Prop :=
  (∀ (rd rs rt : Reg) (shamt : BitVec 5),
    decode (assembleR 0x00#6 rs rt rd shamt 0x27#6) = .instr (.nor rd rs rt)) ∧
  ∀ (rd rs rt : Reg) (s : State), ∃ t, exec (.nor rd rs rt) s = .next t ∧
    (∀ k, k < 32 → (t.reg rd).getLsbD k = !((s.reg rs).getLsbD k || (s.reg rt).getLsbD k)) ∧ SameButReg s t rd

/-- R106, whole: the encoding, the exact signed comparison as 1 or 0, and nothing else changed. -/
def Obligations.SltWritesSignedLess : Prop :=
  (∀ (rd rs rt : Reg) (shamt : BitVec 5),
    decode (assembleR 0x00#6 rs rt rd shamt 0x2a#6) = .instr (.slt rd rs rt)) ∧
  ∀ (rd rs rt : Reg) (s : State), ∃ t, exec (.slt rd rs rt) s = .next t ∧
    t.reg rd = (if (s.reg rs).toInt < (s.reg rt).toInt then 1#32 else 0#32) ∧ SameButReg s t rd

/-! ### Shifts (`spec/42_shift.md`) -/

/-- R110, whole: the encoding with any `rs`, the product by `2^shamt` modulo `2^32`, and nothing else changed. -/
def Obligations.SllWritesShiftedLeft : Prop :=
  (∀ (rd rs rt : Reg) (shamt : BitVec 5),
    decode (assembleR 0x00#6 rs rt rd shamt 0x00#6) = .instr (.sll rd rt shamt)) ∧
  ∀ (rd rt : Reg) (shamt : BitVec 5) (s : State), ∃ t, exec (.sll rd rt shamt) s = .next t ∧
    (t.reg rd).toNat = (s.reg rt).toNat * 2 ^ shamt.toNat % 2 ^ 32 ∧ SameButReg s t rd

/-- R111, whole: the encoding, the unsigned quotient by `2^shamt`, and nothing else changed. -/
def Obligations.SrlWritesUnsignedQuotient : Prop :=
  (∀ (rd rs rt : Reg) (shamt : BitVec 5),
    decode (assembleR 0x00#6 rs rt rd shamt 0x02#6) = .instr (.srl rd rt shamt)) ∧
  ∀ (rd rt : Reg) (shamt : BitVec 5) (s : State), ∃ t, exec (.srl rd rt shamt) s = .next t ∧
    (t.reg rd).toNat = (s.reg rt).toNat / 2 ^ shamt.toNat ∧ SameButReg s t rd

/-- R112, whole: the encoding, the closed form of the bit-replication loop that the meaning runs (the signed quotient by
`2^shamt` rounded toward minus infinity; `/` on Int by a positive number is that floor), and nothing else changed. -/
def Obligations.SraWritesSignedFloorQuotient : Prop :=
  (∀ (rd rs rt : Reg) (shamt : BitVec 5),
    decode (assembleR 0x00#6 rs rt rd shamt 0x03#6) = .instr (.sra rd rt shamt)) ∧
  ∀ (rd rt : Reg) (shamt : BitVec 5) (s : State), ∃ t, exec (.sra rd rt shamt) s = .next t ∧
    (t.reg rd).toInt = (s.reg rt).toInt / 2 ^ shamt.toNat ∧ SameButReg s t rd

/-! ### Immediate-format ALU instructions (`spec/43_alu_immediate.md`) -/

/-- R120, whole: the encoding, the sum with the sign-extended immediate modulo `2^32`, and nothing else changed. -/
def Obligations.AddiWritesSignedSum : Prop :=
  (∀ (rt rs : Reg) (imm : BitVec 16), decode (assembleI 0x08#6 rs rt imm) = .instr (.addi rt rs imm)) ∧
  ∀ (rt rs : Reg) (imm : BitVec 16) (s : State), ∃ t, exec (.addi rt rs imm) s = .next t ∧
    ((t.reg rt).toNat : Int) = (((s.reg rs).toNat : Int) + imm.toInt) % 2 ^ 32 ∧ SameButReg s t rt

/-- R121, whole: the encoding, the and with the zero-extended immediate, and nothing else changed. -/
def Obligations.AndiWritesZeroExtendedAnd : Prop :=
  (∀ (rt rs : Reg) (imm : BitVec 16), decode (assembleI 0x0c#6 rs rt imm) = .instr (.andi rt rs imm)) ∧
  ∀ (rt rs : Reg) (imm : BitVec 16) (s : State), ∃ t, exec (.andi rt rs imm) s = .next t ∧
    (t.reg rt).toNat = (s.reg rs).toNat &&& imm.toNat ∧ SameButReg s t rt

/-- R122, whole: the encoding, the or with the zero-extended immediate, and nothing else changed. -/
def Obligations.OriWritesZeroExtendedOr : Prop :=
  (∀ (rt rs : Reg) (imm : BitVec 16), decode (assembleI 0x0d#6 rs rt imm) = .instr (.ori rt rs imm)) ∧
  ∀ (rt rs : Reg) (imm : BitVec 16) (s : State), ∃ t, exec (.ori rt rs imm) s = .next t ∧
    (t.reg rt).toNat = (s.reg rs).toNat ||| imm.toNat ∧ SameButReg s t rt

/-- R123, whole: the encoding, the exact signed comparison with the sign-extended immediate, and nothing else changed. -/
def Obligations.SltiWritesSignedLess : Prop :=
  (∀ (rt rs : Reg) (imm : BitVec 16), decode (assembleI 0x0a#6 rs rt imm) = .instr (.slti rt rs imm)) ∧
  ∀ (rt rs : Reg) (imm : BitVec 16) (s : State), ∃ t, exec (.slti rt rs imm) s = .next t ∧
    t.reg rt = (if (s.reg rs).toInt < imm.toInt then 1#32 else 0#32) ∧ SameButReg s t rt

/-! ### Loads and stores (`spec/44_load_store.md`) -/

/-- The address of lw and sw is the base plus the sign-extended immediate modulo `2^32` (R37, R130). The sign extension
is decision D5 of the spec. -/
def Obligations.EffectiveAddressIsSignedSum : Prop :=
  ∀ (s : State) (rs : Reg) (imm : BitVec 16),
    ((s.effectiveAddress rs imm).toNat : Int) = (((s.reg rs).toNat : Int) + imm.toInt) % 2 ^ 32

/-- The two readings of the immediate's extension agree below `0x8000` (R130, `90_conflicts.md` C1). -/
def Obligations.ExtensionReadingsAgreeBelow0x8000 : Prop :=
  ∀ (base : Word) (imm : BitVec 16), imm.toNat < 0x8000 →
    addressWith .sign base imm = addressWith .zero base imm

/-- lw completes where its address is in range: the four bytes from the address, lowest most significant, go to `rt`, and
nothing else changes, whatever the alignment (R31, R35, R131; the sign extension is D5, no alignment D6, the range D7). -/
def Obligations.LwInRangeLoadsWord : Prop :=
  (∀ (rt rs : Reg) (imm : BitVec 16), decode (assembleI 0x23#6 rs rt imm) = .instr (.lw rt rs imm)) ∧
  ∀ (rt rs : Reg) (imm : BitVec 16) (s : State), (s.effectiveAddress rs imm).toNat ≤ 0xFFFFC →
    ∃ t, exec (.lw rt rs imm) s = .next t ∧
      (t.reg rt).toNat =
        (s.mem.byteAt (s.effectiveAddress rs imm).toNat).toNat * 2 ^ 24 +
        (s.mem.byteAt ((s.effectiveAddress rs imm).toNat + 1)).toNat * 2 ^ 16 +
        (s.mem.byteAt ((s.effectiveAddress rs imm).toNat + 2)).toNat * 2 ^ 8 +
        (s.mem.byteAt ((s.effectiveAddress rs imm).toNat + 3)).toNat ∧
      SameButReg s t rt

/-- lw outside memory: the status records `OutOfBounds(Load, EA)`; no register, no byte and not the pc changes
(R36, R131, R172; decision D7). -/
def Obligations.LwOutOfRangeFaults : Prop :=
  ∀ (rt rs : Reg) (imm : BitVec 16) (s : State), 0xFFFFC < (s.effectiveAddress rs imm).toNat →
    ∃ t, exec (.lw rt rs imm) s = .next t ∧
      t.status = .fault (.outOfBounds .load (s.effectiveAddress rs imm)) ∧ SameButStatus s t

/-- sw completes where its address is in range: the four bytes of `x[rt]`, most significant first, stand at the address
and the three after it, and nothing else changes, whatever the alignment (R32, R35, R132; D5, D6, D7). -/
def Obligations.SwInRangeStoresWord : Prop :=
  (∀ (rt rs : Reg) (imm : BitVec 16), decode (assembleI 0x2b#6 rs rt imm) = .instr (.sw rt rs imm)) ∧
  ∀ (rt rs : Reg) (imm : BitVec 16) (s : State), (s.effectiveAddress rs imm).toNat ≤ 0xFFFFC →
    ∃ t, exec (.sw rt rs imm) s = .next t ∧
      (∀ k, k < 4 → (t.mem.byteAt ((s.effectiveAddress rs imm).toNat + k)).toNat =
        (s.reg rt).toNat / 2 ^ (8 * (3 - k)) % 2 ^ 8) ∧
      SameButWord s t (s.effectiveAddress rs imm).toNat

/-- sw outside memory: the status records `OutOfBounds(Store, EA)`; no byte, not even one that is in range, no register
and not the pc changes (R36, R132, R172; decision D7). -/
def Obligations.SwOutOfRangeFaults : Prop :=
  ∀ (rt rs : Reg) (imm : BitVec 16) (s : State), 0xFFFFC < (s.effectiveAddress rs imm).toNat →
    ∃ t, exec (.sw rt rs imm) s = .next t ∧
      t.status = .fault (.outOfBounds .store (s.effectiveAddress rs imm)) ∧ SameButStatus s t

/-- The memory read of the load/store unit, in range and out of it (R31, R36; the range check is D7). -/
def Obligations.MemReadIsBigEndian : Prop :=
  ∀ (s : State) (addr : Word),
    (addr.toNat ≤ 0xFFFFC → ∃ v, s.memRead addr = some v ∧
      v.toNat = (s.mem.byteAt addr.toNat).toNat * 2 ^ 24 + (s.mem.byteAt (addr.toNat + 1)).toNat * 2 ^ 16 +
        (s.mem.byteAt (addr.toNat + 2)).toNat * 2 ^ 8 + (s.mem.byteAt (addr.toNat + 3)).toNat) ∧
    (0xFFFFC < addr.toNat → s.memRead addr = none)

/-- The memory write of the load/store unit, in range and out of it (R32, R36; the range check is D7). -/
def Obligations.MemWriteIsBigEndian : Prop :=
  ∀ (s : State) (addr v : Word),
    (addr.toNat ≤ 0xFFFFC → ∃ t, s.memWrite addr v = some t ∧
      (∀ k, k < 4 → (t.mem.byteAt (addr.toNat + k)).toNat = v.toNat / 2 ^ (8 * (3 - k)) % 2 ^ 8) ∧
      SameButWord s t addr.toNat) ∧
    (0xFFFFC < addr.toNat → s.memWrite addr v = none)

/-- The round-trip law of R46, for the memory operations at any alignment and for as long as no store overlaps, and for
sw followed by lw at the same effective address. -/
def Obligations.StoreThenLoadReturnsValue : Prop :=
  (∀ (s : State) (addr v : Word), InRange addr → ∃ t, s.memWrite addr v = some t ∧ t.memRead addr = some v ∧
    ∀ (addr' v' : Word) (u : State), u.memRead addr = some v →
      (addr'.toNat + 4 ≤ addr.toNat ∨ addr.toNat + 4 ≤ addr'.toNat) →
      ∀ u', u.memWrite addr' v' = some u' → u'.memRead addr = some v) ∧
  ∀ (s t : State) (rt rs rt' rs' : Reg) (imm imm' : BitVec 16), InRange (s.effectiveAddress rs imm) →
    exec (.sw rt rs imm) s = .next t → t.effectiveAddress rs' imm' = s.effectiveAddress rs imm →
    ∃ u, exec (.lw rt' rs' imm') t = .next u ∧ u.reg rt' = s.reg rt

/-- A read one byte above a stored word sees its low three bytes and then the byte after it (R47). -/
def Obligations.OverlappingReadSeesBytes : Prop :=
  ∀ (s t : State) (addr v : Word), s.memWrite addr v = some t → addr.toNat + 1 ≤ 0xFFFFC →
    ∃ w, t.memRead (addr + 1#32) = some w ∧
      w.toNat = v.toNat % 2 ^ 24 * 2 ^ 8 + (s.mem.byteAt (addr.toNat + 4)).toNat

/-! ### Branches (`spec/45_branch.md`) -/

/-- beq completes always: taken on equality of all 32 bits to `pcf + 4*imm` modulo `2^32`, else the pc stays `pcf`, and
nothing else changes (R140, R141; the wrap of the pc is decision D13). -/
def Obligations.BeqBranchesOnEqual : Prop :=
  (∀ (rs rt : Reg) (imm : BitVec 16), decode (assembleI 0x04#6 rs rt imm) = .instr (.beq rs rt imm)) ∧
  ∀ (rs rt : Reg) (imm : BitVec 16) (s : State), ∃ t, exec (.beq rs rt imm) s = .next t ∧
    (t.pc.toNat : Int) =
      (if s.reg rs = s.reg rt then ((s.pc.toNat : Int) + 4 * imm.toInt) % 2 ^ 32 else (s.pc.toNat : Int)) ∧
    SameButPc s t

/-- bne completes always: taken on inequality to `pcf + 4*imm` modulo `2^32`, else the pc stays `pcf`, and nothing else
changes (R140, R142; the wrap of the pc is decision D13). -/
def Obligations.BneBranchesOnUnequal : Prop :=
  (∀ (rs rt : Reg) (imm : BitVec 16), decode (assembleI 0x05#6 rs rt imm) = .instr (.bne rs rt imm)) ∧
  ∀ (rs rt : Reg) (imm : BitVec 16) (s : State), ∃ t, exec (.bne rs rt imm) s = .next t ∧
    (t.pc.toNat : Int) =
      (if s.reg rs = s.reg rt then (s.pc.toNat : Int) else ((s.pc.toNat : Int) + 4 * imm.toInt) % 2 ^ 32) ∧
    SameButPc s t

/-! ### Jumps (`spec/46_jump.md`) -/

/-- R153, whole: the encoding with any `rt`, `rd` and `shamt`; the pc is the register, copied unchanged; nothing else
changes. -/
def Obligations.JrCopiesRegisterToPc : Prop :=
  (∀ (rs rt rd : Reg) (shamt : BitVec 5), decode (assembleR 0x00#6 rs rt rd shamt 0x08#6) = .instr (.jr rs)) ∧
  ∀ (rs : Reg) (s : State), ∃ t, exec (.jr rs) s = .next t ∧ t.pc = s.reg rs ∧ SameButPc s t

/-- R151, whole: the encoding, the four high bits of `pcf` over the 26-bit field times 4, and nothing else changed. -/
def Obligations.JumpTargetJoinsPcAndField : Prop :=
  (∀ target : BitVec 26, decode (assembleJ 0x02#6 target) = .instr (.j target)) ∧
  ∀ (target : BitVec 26) (s : State), ∃ t, exec (.j target) s = .next t ∧
    t.pc.toNat = s.pc.toNat / 2 ^ 28 * 2 ^ 28 + target.toNat * 4 ∧ SameButPc s t

/-- R152, whole: the encoding, `ra` = `pcf`, the jump target of the same `pcf`, and nothing else changed. -/
def Obligations.JalLinksAndJumps : Prop :=
  (∀ target : BitVec 26, decode (assembleJ 0x03#6 target) = .instr (.jal target)) ∧
  ∀ (target : BitVec 26) (s : State), ∃ t, exec (.jal target) s = .next t ∧ t.reg 31#5 = s.pc ∧
    t.pc.toNat = s.pc.toNat / 2 ^ 28 * 2 ^ 28 + target.toNat * 4 ∧ SameButPcAndReg s t 31#5

/-! ### Halt (`spec/47_halt_and_unrecognized.md`) -/

/-- halt completes always: the status becomes `Halted` and nothing else changes (R160; the tag is decision D8). -/
def Obligations.HaltEndsRun : Prop :=
  decode 0xFFFFFFFF#32 = .instr .halt ∧
  ∀ s : State, ∃ t, exec .halt s = .next t ∧ t.status = .halted ∧ SameButStatus s t

/-! ### Rules about every instruction -/

/-- Every instruction answers a next state from every state, and the status changes only by halt or by an lw or sw
outside memory (R83, R170, R183; the fault is decision D7). -/
def Obligations.EveryInstructionCompletes : Prop :=
  ∀ (i : Instr) (s : State), ∃ t, exec i s = .next t ∧
    (t.status ≠ s.status → i = .halt ∨
      ∃ rt rs imm, (i = .lw rt rs imm ∨ i = .sw rt rs imm) ∧ ¬ InRange (s.effectiveAddress rs imm))

/-- No instruction but sw changes memory (R30). -/
def Obligations.OnlySwWritesMemory : Prop :=
  ∀ (i : Instr) (s t : State), exec i s = .next t → (∀ rt rs imm, i ≠ .sw rt rs imm) →
    ∀ a, t.mem.byteAt a = s.mem.byteAt a

/-- An instruction writes no register but the one of R14's table. -/
def Obligations.OnlyDestinationWritten : Prop :=
  ∀ (i : Instr) (s t : State), exec i s = .next t → ∀ r, destination? i ≠ some r → t.reg r = s.reg r

/-- What an instruction does depends on no register but those R14's table says it reads: changing another register `r`
beforehand leaves every other effect as it was, and, where the instruction writes `r`, what it writes there. An lw that
faults writes no register (R172; decision D7), so there `r` keeps the changed value, as it does where `r` is no
destination. -/
def Obligations.OnlySourcesRead : Prop :=
  ∀ (i : Instr) (s t : State) (r : Reg) (v : Word), r ∉ sources i → exec i s = .next t →
    ∃ u, exec i (s.setReg r v) = .next u ∧ u.pc = t.pc ∧ u.status = t.status ∧ u.mem = t.mem ∧
      (∀ q, q ≠ r → u.reg q = t.reg q) ∧
      (destination? i = some r → (∀ rt rs imm, i = .lw rt rs imm → InRange (s.effectiveAddress rs imm)) →
        u.reg r = t.reg r) ∧
      ((destination? i ≠ some r ∨ ∃ rt rs imm, i = .lw rt rs imm ∧ ¬ InRange (s.effectiveAddress rs imm)) →
        u.reg r = v)

/-- No instruction but lw lets memory reach a register, the pc or the status (R30). -/
def Obligations.OnlyLwReadsMemory : Prop :=
  ∀ (i : Instr) (s t : State) (m : Memory), (∀ rt rs imm, i ≠ .lw rt rs imm) → exec i s = .next t →
    ∃ u, exec i { s with mem := m } = .next u ∧ (∀ r, u.reg r = t.reg r) ∧ u.pc = t.pc ∧ u.status = t.status

/-! ### The step (`spec/40_step_cycle.md`, `spec/60_exceptions.md`) -/

/-- A step from a running state whose word at the pc decodes to `i` is `exec i` on the state with the pc advanced by 4
(R80, R82, R83). -/
def Obligations.StepRunsDecodedInstruction : Prop :=
  ∀ (s : State) (i : Instr), s.status = .running → InRange s.pc →
    decodeBytes (s.mem.byteAt s.pc.toNat) (s.mem.byteAt (s.pc.toNat + 1)) (s.mem.byteAt (s.pc.toNat + 2))
      (s.mem.byteAt (s.pc.toNat + 3)) = .instr i →
    step s = exec i { s with pc := s.pc + 4#32 }

/-- A fetch outside memory ends the run with `OutOfBounds(Fetch, pc)` and nothing else changed (R81, R172; decision D7). -/
def Obligations.StepFetchOutOfRangeFaults : Prop :=
  ∀ s : State, s.status = .running → 0xFFFFC < s.pc.toNat →
    ∃ t, step s = .next t ∧ t.status = .fault (.outOfBounds .fetch s.pc) ∧ SameButStatus s t

/-- An unrecognized word ends the run: the status records the word, the pc is advanced by 4, and nothing else changes
(R86, R161; the tag is decision D8, the pc decision D17). -/
def Obligations.StepUnrecognizedWordEndsRun : Prop :=
  ∀ (s : State) (w : Word), s.status = .running → s.memRead s.pc = some w → decode w = .unrecognized w →
    ∃ t, step s = .next t ∧ t.status = .illegalInstruction w ∧ t.pc = s.pc + 4#32 ∧
      (∀ r, t.reg r = s.reg r) ∧ ∀ a, t.mem.byteAt a = s.mem.byteAt a

/-- A step answers a next state exactly when the run goes on, answers the recorded cause when it has ended, and never
refuses (R84, R88; decision D9). -/
def Obligations.StepGoesOnExactlyWhileRunning : Prop :=
  ∀ s : State, ((∃ t, step s = .next t) ↔ s.status = .running) ∧ (∀ r, step s ≠ .refused r) ∧
    (s.status = .halted → step s = .fault .halted) ∧
    (∀ w, s.status = .illegalInstruction w → step s = .fault (.illegalInstruction w)) ∧
    (∀ k a, s.status = .fault (.outOfBounds k a) → step s = .fault (.outOfBounds k a))

/-- A step that fetches advances the pc by exactly 4, unless the instruction is a branch or a jump; also where the run
ends in that step (R18, R82, R86, R171). -/
def Obligations.NonTransferAdvancesPcByFour : Prop :=
  ∀ s t : State, step s = .next t → InRange s.pc →
    (∀ i, decode (s.mem.wordAt s.pc.toNat) = .instr i → isTransfer i = false) → t.pc = s.pc + 4#32

/-- An aligned pc stays aligned through every step but that of a jr (R19, R140, R150). -/
def Obligations.PcStaysAlignedButForJr : Prop :=
  ∀ s t : State, step s = .next t → s.pc.toNat % 4 = 0 →
    (∀ rs, decode (s.mem.wordAt s.pc.toNat) ≠ .instr (.jr rs)) → t.pc.toNat % 4 = 0

/-- A stored word is what the next step fetches, if the store goes where it fetches: self-modifying code needs nothing in
between (R43, R196; decision D19). -/
def Obligations.StoreIsSeenByNextFetch : Prop :=
  ∀ (s : State) (rt rs : Reg) (imm : BitVec 16), s.status = .running → InRange s.pc →
    decode (s.mem.wordAt s.pc.toNat) = .instr (.sw rt rs imm) → InRange (s.effectiveAddress rs imm) →
    ∃ t, step s = .next t ∧ t.memRead (s.effectiveAddress rs imm) = some (s.reg rt) ∧
      (s.effectiveAddress rs imm = s.pc + 4#32 → ∀ i, decode (s.reg rt) = .instr i → step t = exec i t.advance)

/-- Every step keeps memory in its canonical form: addresses strictly rising, every address one that exists (R23, R36). -/
def Obligations.StepKeepsMemoryCanonical : Prop :=
  ∀ s t : State, s.MemoryCanonical → step s = .next t → t.MemoryCanonical

/-- The memory after reset is in canonical form. -/
def Obligations.ResetMemoryCanonical : Prop :=
  State.reset.MemoryCanonical

/-- Every step keeps the invariant that a state explains its own end: the stopping word or the offending access stands
at `pc - 4`, or the pc itself is outside memory, and the recorded cause is the true one (R86, R171, R172). -/
def Obligations.StepKeepsEndExplained : Prop :=
  ∀ s t : State, s.EndExplained → step s = .next t → t.EndExplained

/-- The state after reset explains its own end: it has none. -/
def Obligations.ResetEndExplained : Prop :=
  State.reset.EndExplained

/-- The end of a run: no step is taken there; it is reached from a running state by exactly the counted number of steps
that continue and one more that does not, and that last step is not counted (R84, R87, R88); more fuel gives the same end.
And every such chain of steps is found with one more fuel than its count. That no step follows is decision D9. -/
def Obligations.RunEndIsFinal : Prop :=
  (∀ (fuel : Nat) (s t : State) (n : Nat), runToEnd fuel s = some (t, n) →
    t.status ≠ .running ∧ (∀ u, step t ≠ .next u) ∧ (s.status ≠ .running → t = s ∧ n = 0) ∧
      (s.status = .running → n < fuel ∧ ∃ u, StepsContinuing n s u ∧ step u = .next t) ∧
      ∀ more, fuel ≤ more → runToEnd more s = some (t, n)) ∧
  ∀ (n : Nat) (s u t : State), s.status = .running → StepsContinuing n s u → step u = .next t →
    t.status ≠ .running → runToEnd (n + 1) s = some (t, n)

/-! ### Reset, the loader and the inspection surface (`spec/10_state.md`, `spec/70_reset_and_hazards.md`) -/

/-- What the spec says of the state after reset, for every value of the parameters it leaves open: the pc is `RESET_PC`,
the registers are `REG_RESET`, every byte of memory is `MEM_INIT`'s, the status is `Running`; and register 0 of the
model's reset state is 0 (R26, R29, R190). -/
def Obligations.ResetFollowsParameters : Prop :=
  (∀ (resetPc : Word) (regReset : Vector Word 32),
    (State.resetWith resetPc regReset).pc = resetPc ∧ (State.resetWith resetPc regReset).status = .running ∧
    (∀ r : Reg, (State.resetWith resetPc regReset).reg r = regReset[r.toNat]'r.isLt) ∧
    ∀ a, (State.resetWith resetPc regReset).mem.byteAt a = Config.memInit a) ∧
  State.reset = State.resetWith Config.resetPc Config.regReset ∧ State.reset.reg 0#5 = 0#32

/-- The model's own choices for the open parameters: `RESET_PC` = 0 (notes/assumptions/1.md), within the bound the spec
sets, and registers 1 to 31 = 0 (notes/assumptions/2.md). -/
def Obligations.ResetParametersChosen : Prop :=
  State.reset.pc = 0#32 ∧ State.reset.pc.toNat + 4 ≤ Config.memSize ∧ ∀ r : Reg, State.reset.reg r = 0#32

/-- The loader's contract: a program that fits stands big-endian from the base with the halt word after it, every other
byte as before (R191), every register as before and the pc at the base (decision D20 of the spec). Two clauses are the
model's own choice (DESIGN CHOICE, notes/assumptions/15.md): that the run status stays as it was, of which the spec says
nothing, and that a program that does not fit, which R191 forbids, gives no loaded state. -/
def Obligations.LoaderPlacesProgramAndHalt : Prop :=
  ∀ (s : State) (base : Word) (program : List Word),
    (base.toNat + 4 * (program.length + 1) ≤ 0x100000 → ∃ t, s.loadProgram base program = some t ∧
      (∀ k (h : k < program.length), t.mem.wordAt (base.toNat + 4 * k) = program[k]) ∧
      t.mem.wordAt (base.toNat + 4 * program.length) = 0xFFFFFFFF#32 ∧
      (∀ a, a < base.toNat ∨ base.toNat + 4 * (program.length + 1) ≤ a → t.mem.byteAt a = s.mem.byteAt a) ∧
      (∀ r, t.reg r = s.reg r) ∧ t.pc = base ∧ t.status = s.status) ∧
    (0x100000 < base.toNat + 4 * (program.length + 1) → s.loadProgram base program = none)

/-- The names of registers 0 to 31 are the whole list of R12, in its order, and each names its register alone. -/
def Obligations.RegisterNamesAreDistinct : Prop :=
  (List.range 32).map (fun k => regName (BitVec.ofNat 5 k)) =
    ["zr", "at", "v0", "v1", "a0", "a1", "a2", "a3", "t0", "t1", "t2", "t3", "t4", "t5", "t6", "t7",
     "s0", "s1", "s2", "s3", "s4", "s5", "s6", "s7", "t8", "t9", "k0", "k1", "gp", "sp", "fp", "ra"] ∧
  ∀ r : Reg, regOfName? (regName r) = some r

/-- A memory range read returns the bytes in address order (R28). -/
def Obligations.InspectedBytesInOrder : Prop :=
  ∀ (s : State) (addr length : Nat), addr + length ≤ 0x100000 →
    ∃ l, s.inspectBytes? addr length = some l ∧ l.length = length ∧
      ∀ k, k < length → l[k]? = some (s.mem.byteAt (addr + k))
end

