-- ==== Sys2Proof/Laws/Decode.lean ====
section
/-! SUPPORT. The field extractor on an assembled word (R51, R52), the format classifier on one, and the bytes of a word. -/

namespace Sys2Proof

variable (op : BitVec 6) (rs rt rd : Reg) (shamt : BitVec 5) (funct : BitVec 6) (imm : BitVec 16) (target : BitVec 26)

@[simp] theorem opcodeOf_assembleR : opcodeOf (assembleR op rs rt rd shamt funct) = op := by
  simp only [opcodeOf, assembleR, BitVec.extractLsb'_append_eq_ite]; simp
@[simp] theorem rsOf_assembleR : rsOf (assembleR op rs rt rd shamt funct) = rs := by
  simp only [rsOf, assembleR, BitVec.extractLsb'_append_eq_ite]; simp
@[simp] theorem rtOf_assembleR : rtOf (assembleR op rs rt rd shamt funct) = rt := by
  simp only [rtOf, assembleR, BitVec.extractLsb'_append_eq_ite]; simp
@[simp] theorem rdOf_assembleR : rdOf (assembleR op rs rt rd shamt funct) = rd := by
  simp only [rdOf, assembleR, BitVec.extractLsb'_append_eq_ite]; simp
@[simp] theorem shamtOf_assembleR : shamtOf (assembleR op rs rt rd shamt funct) = shamt := by
  simp only [shamtOf, assembleR, BitVec.extractLsb'_append_eq_ite]; simp
@[simp] theorem functOf_assembleR : functOf (assembleR op rs rt rd shamt funct) = funct := by
  simp only [functOf, assembleR, BitVec.extractLsb'_append_eq_ite]; simp
@[simp] theorem opcodeOf_assembleI : opcodeOf (assembleI op rs rt imm) = op := by
  simp only [opcodeOf, assembleI, BitVec.extractLsb'_append_eq_ite]; simp
@[simp] theorem rsOf_assembleI : rsOf (assembleI op rs rt imm) = rs := by
  simp only [rsOf, assembleI, BitVec.extractLsb'_append_eq_ite]; simp
@[simp] theorem rtOf_assembleI : rtOf (assembleI op rs rt imm) = rt := by
  simp only [rtOf, assembleI, BitVec.extractLsb'_append_eq_ite]; simp
@[simp] theorem immOf_assembleI : immOf (assembleI op rs rt imm) = imm := by
  simp only [immOf, assembleI, BitVec.extractLsb'_append_eq_ite]; simp
@[simp] theorem opcodeOf_assembleJ : opcodeOf (assembleJ op target) = op := by
  simp only [opcodeOf, assembleJ, BitVec.extractLsb'_append_eq_ite]; simp
@[simp] theorem targetOf_assembleJ : targetOf (assembleJ op target) = target := by
  simp only [targetOf, assembleJ, BitVec.extractLsb'_append_eq_ite]; simp

/-- A mask acts on an R-format word field by field (R52). -/
theorem assembleR_and (op' : BitVec 6) (rs' rt' rd' : Reg) (shamt' : BitVec 5) (funct' : BitVec 6) :
    assembleR op rs rt rd shamt funct &&& assembleR op' rs' rt' rd' shamt' funct' =
      assembleR (op &&& op') (rs &&& rs') (rt &&& rt') (rd &&& rd') (shamt &&& shamt') (funct &&& funct') := by
  unfold assembleR
  erw [BitVec.and_append, BitVec.and_append, BitVec.and_append, BitVec.and_append, BitVec.and_append]

/-- A mask acts on an I-format word field by field (R52). -/
theorem assembleI_and (op' : BitVec 6) (rs' rt' : Reg) (imm' : BitVec 16) :
    assembleI op rs rt imm &&& assembleI op' rs' rt' imm' =
      assembleI (op &&& op') (rs &&& rs') (rt &&& rt') (imm &&& imm') := by
  unfold assembleI
  erw [BitVec.and_append, BitVec.and_append, BitVec.and_append]

/-- A mask acts on a J-format word field by field (R52). -/
theorem assembleJ_and (op' : BitVec 6) (target' : BitVec 26) :
    assembleJ op target &&& assembleJ op' target' = assembleJ (op &&& op') (target &&& target') := by
  unfold assembleJ
  erw [BitVec.and_append]

/-- The mask of the R-format table rows keeps the opcode and the funct (R59). -/
theorem assembleR_tableMask :
    assembleR op rs rt rd shamt funct &&& 0xFC00003F#32 = assembleR op 0#5 0#5 0#5 0#5 funct := by
  have h : (0xFC00003F#32 : Word) = assembleR 0x3F#6 0#5 0#5 0#5 0#5 0x3F#6 := rfl
  rw [h, assembleR_and, show (0x3F#6 : BitVec 6) = BitVec.allOnes 6 from rfl]
  simp only [BitVec.and_allOnes, BitVec.and_zero]

/-- The mask of the I-format table rows keeps the opcode (R59). -/
theorem assembleI_tableMask : assembleI op rs rt imm &&& 0xFC000000#32 = assembleI op 0#5 0#5 0#16 := by
  have h : (0xFC000000#32 : Word) = assembleI 0x3F#6 0#5 0#5 0#16 := rfl
  rw [h, assembleI_and, show (0x3F#6 : BitVec 6) = BitVec.allOnes 6 from rfl]
  simp only [BitVec.and_allOnes, BitVec.and_zero]

/-- The mask of the J-format table rows keeps the opcode (R59). -/
theorem assembleJ_tableMask : assembleJ op target &&& 0xFC000000#32 = assembleJ op 0#26 := by
  have h : (0xFC000000#32 : Word) = assembleJ 0x3F#6 0#26 := rfl
  rw [h, assembleJ_and, show (0x3F#6 : BitVec 6) = BitVec.allOnes 6 from rfl]
  simp only [BitVec.and_allOnes, BitVec.and_zero]

variable {w : Word}

/-- Only opcode `0x3F` can stand in the halt word (R54). -/
theorem ne_haltWord_of_opcode (h : opcodeOf w ≠ 0x3F#6) : w ≠ haltWord := by
  rintro rfl; exact h (by decide)

/-- Opcode 0 is the register format (R53). -/
theorem formatOf_register (h : opcodeOf w = 0x00#6) : formatOf w = .register := by
  have hw : w ≠ haltWord := ne_haltWord_of_opcode (by rw [h]; decide)
  simp [formatOf, hw, h]

/-- Opcodes `0x02` and `0x03` are the jump format (R53). -/
theorem formatOf_jump (h : opcodeOf w = 0x02#6 ∨ opcodeOf w = 0x03#6) : formatOf w = .jump := by
  have hw : w ≠ haltWord := ne_haltWord_of_opcode (by rcases h with h | h <;> rw [h] <;> decide)
  rcases h with h | h <;> simp [formatOf, hw, h]

/-- Every other opcode is the immediate format, unless the word is the halt word (R53, R54). -/
theorem formatOf_immediate (hw : w ≠ haltWord) (h0 : opcodeOf w ≠ 0x00#6) (h2 : opcodeOf w ≠ 0x02#6)
    (h3 : opcodeOf w ≠ 0x03#6) : formatOf w = .immediate := by
  simp [formatOf, hw, h0, h2, h3]

/-- A word of the register format is dispatched on its funct (R55). -/
theorem decode_register (h : opcodeOf w = 0x00#6) : decode w = decodeRegister w := by
  simp [decode, formatOf_register h]

/-- A word of the jump format is dispatched on its opcode (R57). -/
theorem decode_jump (h : opcodeOf w = 0x02#6 ∨ opcodeOf w = 0x03#6) : decode w = decodeJump w := by
  simp [decode, formatOf_jump h]

/-- A word of the immediate format is dispatched on its opcode (R56). -/
theorem decode_immediate (hw : w ≠ haltWord) (h0 : opcodeOf w ≠ 0x00#6) (h2 : opcodeOf w ≠ 0x02#6)
    (h3 : opcodeOf w ≠ 0x03#6) : decode w = decodeImmediate w := by
  simp [decode, formatOf_immediate hw h0 h2 h3]

/-- Where an instruction can come from: the halt check or one of the three dispatches (R53 to R57). -/
theorem decode_cases {i : Instr} (h : decode w = .instr i) :
    (i = .halt ∧ w = haltWord) ∨ (opcodeOf w = 0x00#6 ∧ decodeRegister w = .instr i) ∨
      ((opcodeOf w = 0x02#6 ∨ opcodeOf w = 0x03#6) ∧ decodeJump w = .instr i) ∨
      (w ≠ haltWord ∧ opcodeOf w ≠ 0x00#6 ∧ opcodeOf w ≠ 0x02#6 ∧ opcodeOf w ≠ 0x03#6 ∧
        decodeImmediate w = .instr i) := by
  by_cases hw : w = haltWord
  · subst hw; cases (show Decoded.instr .halt = .instr i from h); exact .inl ⟨rfl, rfl⟩
  by_cases h0 : opcodeOf w = 0x00#6
  · exact .inr (.inl ⟨h0, decode_register h0 ▸ h⟩)
  by_cases h2 : opcodeOf w = 0x02#6 ∨ opcodeOf w = 0x03#6
  · exact .inr (.inr (.inl ⟨h2, decode_jump h2 ▸ h⟩))
  rw [not_or] at h2
  exact .inr (.inr (.inr ⟨hw, h0, h2.1, h2.2, decode_immediate hw h0 h2.1 h2.2 ▸ h⟩))

/-- The decoder never rejects a word under another word's name (R65). -/
theorem decode_unrecognized_word {w' : Word} (h : decode w = .unrecognized w') : w' = w := by
  unfold decode at h
  split at h
  · cases h
  · unfold decodeRegister at h; repeat' (split at h; · cases h)
    cases h; rfl
  · unfold decodeJump at h; split at h <;> cases h
  · unfold decodeImmediate at h; repeat' (split at h; · cases h)
    cases h; rfl

/-! ### The four bytes of a word (R31, R32) -/

/-- The value of four bytes read as a big-endian word, as a sum (R31). -/
theorem toNat_wordOfBytes (b0 b1 b2 b3 : Byte) :
    (wordOfBytes b0 b1 b2 b3).toNat = b0.toNat * 2 ^ 24 + b1.toNat * 2 ^ 16 + b2.toNat * 2 ^ 8 + b3.toNat := by
  simp only [wordOfBytes, BitVec.toNat_append]
  rw [← Nat.shiftLeft_add_eq_or_of_lt b1.isLt, ← Nat.shiftLeft_add_eq_or_of_lt b2.isLt,
    ← Nat.shiftLeft_add_eq_or_of_lt b3.isLt]
  simp only [Nat.shiftLeft_eq]
  omega

/-- The byte stored at offset `k`, as a number (R32). -/
theorem toNat_byteOfWord (v : Word) (k : Nat) : (byteOfWord v k).toNat = v.toNat / 2 ^ (8 * (3 - k)) % 2 ^ 8 := by
  simp only [byteOfWord, BitVec.extractLsb'_toNat, Nat.shiftRight_eq_div_pow]

/-- The bytes a store lays down read back as the word. -/
@[simp] theorem wordOfBytes_byteOfWord (v : Word) :
    wordOfBytes (byteOfWord v 0) (byteOfWord v 1) (byteOfWord v 2) (byteOfWord v 3) = v := by
  apply BitVec.eq_of_toNat_eq
  rw [toNat_wordOfBytes]
  simp only [toNat_byteOfWord]
  have := v.isLt
  omega

/-- Every instruction passes the field-width check: an out-of-range operand cannot be written (R11). -/
theorem Instr.wellFormed_all (i : Instr) : i.wellFormed = true := by
  cases i <;> simp only [Instr.wellFormed, fieldFits, Bool.and_eq_true, decide_eq_true_eq] <;>
    simp only [BitVec.isLt, and_self]

end Sys2Proof
end

