-- ==== Sys2Proof/Laws/State.lean ====
section
/-! SUPPORT. One lemma per field per update of the state, and reading a register after each update. -/

namespace Sys2Proof.Machine

variable (s : State) (r q : Reg) (v : Word) (c : Status)

@[simp] theorem State.setReg_pc : (s.setReg r v).pc = s.pc := rfl
@[simp] theorem State.setReg_mem : (s.setReg r v).mem = s.mem := rfl
@[simp] theorem State.setReg_status : (s.setReg r v).status = s.status := rfl
@[simp] theorem State.setPc_regs : (s.setPc v).regs = s.regs := rfl
@[simp] theorem State.setPc_pc : (s.setPc v).pc = v := rfl
@[simp] theorem State.setPc_mem : (s.setPc v).mem = s.mem := rfl
@[simp] theorem State.setPc_status : (s.setPc v).status = s.status := rfl
@[simp] theorem State.advance_regs : s.advance.regs = s.regs := rfl
@[simp] theorem State.advance_pc : s.advance.pc = s.pc + 4#32 := rfl
@[simp] theorem State.advance_mem : s.advance.mem = s.mem := rfl
@[simp] theorem State.advance_status : s.advance.status = s.status := rfl
@[simp] theorem State.stop_regs : (s.stop c).regs = s.regs := rfl
@[simp] theorem State.stop_pc : (s.stop c).pc = s.pc := rfl
@[simp] theorem State.stop_mem : (s.stop c).mem = s.mem := rfl
@[simp] theorem State.stop_status : (s.stop c).status = c := rfl

@[simp] theorem State.setPc_reg : (s.setPc v).reg q = s.reg q := rfl
@[simp] theorem State.advance_reg : s.advance.reg q = s.reg q := rfl
@[simp] theorem State.stop_reg : (s.stop c).reg q = s.reg q := rfl

/-- The written register holds the value, register 0 included (R13). -/
@[simp] theorem State.setReg_reg_same : (s.setReg r v).reg r = v := by
  simp [State.setReg, State.reg]

/-- Every other register keeps its value. -/
theorem State.setReg_reg_other {r q : Reg} (h : q ≠ r) : (s.setReg r v).reg q = s.reg q := by
  have hn : r.toNat ≠ q.toNat := fun e => h (BitVec.eq_of_toNat_eq e.symm)
  simp [State.setReg, State.reg, hn]

/-- A register after a register write. -/
theorem State.setReg_reg : (s.setReg r v).reg q = if q = r then v else s.reg q := by
  split
  · subst q; simp
  · exact s.setReg_reg_other v ‹_›

/-- Two states are equal when their registers, pc, memory and status are (R10, R25). -/
theorem State.ext_of_reg {s t : State} (hr : ∀ r, t.reg r = s.reg r) (hp : t.pc = s.pc) (hm : t.mem = s.mem)
    (hs : t.status = s.status) : t = s := by
  obtain ⟨sr, sp, sm, ss⟩ := s
  obtain ⟨tr, tp, tm, ts⟩ := t
  have : tr = sr := Vector.ext fun i hi => by
    simpa [State.reg, BitVec.toNat_ofNat, Nat.mod_eq_of_lt hi] using hr (BitVec.ofNat 5 i)
  simp_all

end Sys2Proof.Machine
end

