-- ==== Sys2Proof/Laws/Memory.lean ====
section
/-! SUPPORT. Reading memory after a write, and that every memory operation keeps the canonical form (R23, R31, R32). -/

namespace Sys2Proof.Machine

/-- The byte listed for an address after one byte is written. -/
theorem Memory.listed?_setByte (m : Memory) (a b : Nat) (v : Byte) :
    (m.setByte a v).listed? b = if b = a then some v else m.listed? b := by
  induction m with
  | nil => simp [Memory.setByte, Memory.listed?]
  | cons c rest ih =>
    obtain ⟨x, w⟩ := c
    simp only [Memory.setByte]
    split
    · simp [Memory.listed?]
    · split
      · subst a; by_cases hb : b = x <;> simp [Memory.listed?, hb]
      · by_cases hb : b = x
        · subst b; simp_all [Memory.listed?, eq_comm]
        · simp [Memory.listed?, hb, ih]

/-- `Mem[b]` after `Mem[a] <- v`. -/
theorem Memory.byteAt_setByte (m : Memory) (a b : Nat) (v : Byte) :
    (m.setByte a v).byteAt b = if b = a then v else m.byteAt b := by
  by_cases h : b = a <;> simp [Memory.byteAt, Memory.listed?_setByte, h]

/-- A byte outside the stored word keeps its value (R32). -/
theorem Memory.byteAt_setWord_outside (m : Memory) (v : Word) {a b : Nat} (h : b < a ∨ a + 4 ≤ b) :
    (m.setWord a v).byteAt b = m.byteAt b := by
  simp only [Memory.setWord, Memory.byteAt_setByte]
  repeat' rw [if_neg (by omega)]

/-- The four stored bytes (R32). -/
theorem Memory.byteAt_setWord_inside (m : Memory) (v : Word) (a : Nat) {k : Nat} (h : k < 4) :
    (m.setWord a v).byteAt (a + k) = byteOfWord v k := by
  simp only [Memory.setWord, Memory.byteAt_setByte]
  interval_cases k <;> simp

/-- The stored word reads back (R46). -/
@[simp] theorem Memory.wordAt_setWord_same (m : Memory) (a : Nat) (v : Word) : (m.setWord a v).wordAt a = v := by
  have h := fun k (hk : k < 4) => m.byteAt_setWord_inside v a hk
  have h0 := h 0 (by decide)
  rw [Nat.add_zero] at h0
  simp [Memory.wordAt, h0, h 1 (by decide), h 2 (by decide), h 3 (by decide)]

/-- A word that does not overlap the stored one keeps its value. -/
theorem Memory.wordAt_setWord_disjoint (m : Memory) (v : Word) {a b : Nat} (h : b + 4 ≤ a ∨ a + 4 ≤ b) :
    (m.setWord a v).wordAt b = m.wordAt b := by
  simp only [Memory.wordAt]
  rw [m.byteAt_setWord_outside v (by omega), m.byteAt_setWord_outside v (by omega),
    m.byteAt_setWord_outside v (by omega), m.byteAt_setWord_outside v (by omega)]

/-- The addresses listed after a byte is written. -/
theorem Memory.mem_setByte {m : Memory} {a : Nat} {v : Byte} {c : Host.Cell} (h : c ∈ m.setByte a v) :
    c = (a, v) ∨ c ∈ m := by
  induction m with
  | nil => simpa [Memory.setByte] using h
  | cons d rest ih =>
    simp only [Memory.setByte] at h
    split at h
    · simpa using h
    · split at h
      · rcases List.mem_cons.1 h with h | h
        · exact .inl h
        · exact .inr (List.mem_cons_of_mem _ h)
      · rcases List.mem_cons.1 h with h | h
        · exact .inr (h ▸ List.mem_cons_self)
        · exact (ih h).imp id (List.mem_cons_of_mem _)

/-- Writing a byte keeps the addresses strictly rising. -/
theorem Memory.pairwise_setByte {m : Memory} {a : Nat} {v : Byte} (h : m.Pairwise (fun c d => c.1 < d.1)) :
    (m.setByte a v).Pairwise (fun c d => c.1 < d.1) := by
  induction m with
  | nil => simp [Memory.setByte]
  | cons d rest ih =>
    obtain ⟨hd, hr⟩ := List.pairwise_cons.1 h
    simp only [Memory.setByte]
    split
    · rename_i ha
      refine List.pairwise_cons.2 ⟨fun c hc => ?_, h⟩
      rcases List.mem_cons.1 hc with rfl | hc
      · exact ha
      · exact lt_trans ha (hd c hc)
    · split
      · rename_i ha; subst a; exact List.pairwise_cons.2 ⟨hd, hr⟩
      · refine List.pairwise_cons.2 ⟨fun c hc => ?_, ih hr⟩
        rcases Memory.mem_setByte hc with rfl | hc
        · show d.1 < a; omega
        · exact hd c hc

/-- Writing a byte at an address that exists keeps the canonical form. -/
theorem Memory.wf_setByte {m : Memory} {a : Nat} {v : Byte} (h : m.wf) (ha : a < Config.memSize) :
    (m.setByte a v).wf := by
  refine ⟨Memory.pairwise_setByte h.1, fun c hc => ?_⟩
  rcases Memory.mem_setByte hc with rfl | hc
  · exact ha
  · exact h.2 c hc

/-- Writing a word that lies in memory keeps the canonical form. -/
theorem Memory.wf_setWord {m : Memory} {a : Nat} {v : Word} (h : m.wf) (ha : a ≤ Config.memSize - 4) :
    (m.setWord a v).wf := by
  have hs : Config.memSize = 0x100000 := rfl
  exact Memory.wf_setByte (Memory.wf_setByte (Memory.wf_setByte (Memory.wf_setByte h (by omega)) (by omega))
    (by omega)) (by omega)

/-- In canonical form a listing is determined by the bytes it lists: equal memories are equal data. -/
theorem Memory.ext_of_listed {m n : Memory} (hm : m.wf) (hn : n.wf) (h : ∀ a, m.listed? a = n.listed? a) : m = n := by
  have key : ∀ {m : Memory}, m.Pairwise (fun c d => c.1 < d.1) → ∀ {a v}, m.listed? a = some v ↔ (a, v) ∈ m := by
    intro m hp a v
    induction m with
    | nil => simp [Memory.listed?]
    | cons d rest ih =>
      obtain ⟨x, w⟩ := d
      obtain ⟨hd, hr⟩ := List.pairwise_cons.1 hp
      by_cases hx : a = x
      · subst a
        have : (x, v) ∉ rest := fun hv => lt_irrefl x (hd _ hv)
        simp [Memory.listed?, this, eq_comm]
      · simp [Memory.listed?, hx, ih hr]
  have hmem : ∀ c, c ∈ m ↔ c ∈ n := fun ⟨a, v⟩ => by rw [← key hm.1, ← key hn.1, h]
  have nodup : ∀ {m : Memory}, m.Pairwise (fun c d => c.1 < d.1) → m.Nodup := fun hp =>
    hp.imp fun hlt he => by subst he; exact lt_irrefl _ hlt
  have perm := (List.perm_ext_iff_of_nodup (nodup hm.1) (nodup hn.1)).2 hmem
  exact perm.eq_of_pairwise (fun _ _ _ _ h1 h2 => absurd (lt_trans h1 h2) (lt_irrefl _)) hm.1 hn.1

/-! ### The state's memory operations (R31, R32, R36) -/

/-- What `MemRead` can answer. -/
theorem State.memRead_eq_some {s : State} {addr v : Word} :
    s.memRead addr = some v ↔ InRange addr ∧ s.mem.wordAt addr.toNat = v := by
  simp [State.memRead]

/-- `MemRead` answers nothing exactly where the access leaves memory. -/
theorem State.memRead_eq_none {s : State} {addr : Word} : s.memRead addr = none ↔ ¬ InRange addr := by
  simp [State.memRead]

/-- What `MemWrite` can answer. -/
theorem State.memWrite_eq_some {s t : State} {addr v : Word} :
    s.memWrite addr v = some t ↔ InRange addr ∧ t = { s with mem := s.mem.setWord addr.toNat v } := by
  simp [State.memWrite, eq_comm]

/-- `MemWrite` answers nothing exactly where the access leaves memory. -/
theorem State.memWrite_eq_none {s : State} {addr v : Word} : s.memWrite addr v = none ↔ ¬ InRange addr := by
  simp [State.memWrite]

/-- Placing words changes memory only. -/
theorem State.placeWords_frame (s : State) (base : Nat) (ws : List Word) :
    (s.placeWords base ws).regs = s.regs ∧ (s.placeWords base ws).pc = s.pc ∧
      (s.placeWords base ws).status = s.status := by
  induction ws generalizing s base with
  | nil => exact ⟨rfl, rfl, rfl⟩
  | cons w ws ih => exact ih _ _

/-- Placing words that lie in memory keeps the canonical form. -/
theorem State.placeWords_wf {s : State} {base : Nat} {ws : List Word} (h : s.mem.wf)
    (hb : base + 4 * ws.length ≤ Config.memSize) : (s.placeWords base ws).mem.wf := by
  induction ws generalizing s base with
  | nil => exact h
  | cons w ws ih =>
    simp only [List.length_cons] at hb
    exact ih (s := { s with mem := s.mem.setWord base w }) (Memory.wf_setWord h (by omega)) (by omega)

end Sys2Proof.Machine
end

