-- ==== Sys2Proof/Laws/Exec.lean ====
section
/-! SUPPORT. What each shared operation and the step can do, said once: the two paths of lw and sw, and the cases of
one step. -/

namespace Sys2Proof.Machine

variable {s t : State}

/-! ### The ALU instructions write one register and leave the rest (R100, R113, R124) -/

@[simp] theorem aluRegister_pc (op : AluOp) (rd rs rt : Reg) : (aluRegister op rd rs rt s).pc = s.pc := rfl
@[simp] theorem aluRegister_mem (op : AluOp) (rd rs rt : Reg) : (aluRegister op rd rs rt s).mem = s.mem := rfl
@[simp] theorem aluRegister_status (op : AluOp) (rd rs rt : Reg) : (aluRegister op rd rs rt s).status = s.status := rfl
@[simp] theorem aluShift_pc (op : AluOp) (rd rt : Reg) (n : BitVec 5) : (aluShift op rd rt n s).pc = s.pc := rfl
@[simp] theorem aluShift_mem (op : AluOp) (rd rt : Reg) (n : BitVec 5) : (aluShift op rd rt n s).mem = s.mem := rfl
@[simp] theorem aluShift_status (op : AluOp) (rd rt : Reg) (n : BitVec 5) :
    (aluShift op rd rt n s).status = s.status := rfl
@[simp] theorem aluImmediate_pc (op : AluOp) (rt rs : Reg) (b : Word) : (aluImmediate op rt rs b s).pc = s.pc := rfl
@[simp] theorem aluImmediate_mem (op : AluOp) (rt rs : Reg) (b : Word) : (aluImmediate op rt rs b s).mem = s.mem := rfl
@[simp] theorem aluImmediate_status (op : AluOp) (rt rs : Reg) (b : Word) :
    (aluImmediate op rt rs b s).status = s.status := rfl

/-- A register after an R-format ALU instruction (R14). -/
theorem aluRegister_reg (op : AluOp) (rd rs rt q : Reg) :
    (aluRegister op rd rs rt s).reg q = if q = rd then alu op (s.reg rs) (s.reg rt) 0#5 else s.reg q :=
  State.setReg_reg ..

/-- A register after a shift (R113). -/
theorem aluShift_reg (op : AluOp) (rd rt q : Reg) (n : BitVec 5) :
    (aluShift op rd rt n s).reg q = if q = rd then alu op 0#32 (s.reg rt) n else s.reg q :=
  State.setReg_reg ..

/-- A register after an I-format ALU instruction (R124). -/
theorem aluImmediate_reg (op : AluOp) (rt rs q : Reg) (b : Word) :
    (aluImmediate op rt rs b s).reg q = if q = rt then alu op (s.reg rs) b 0#5 else s.reg q :=
  State.setReg_reg ..

/-! ### Loads, stores and branches -/

/-- The in-range path of lw (R131). -/
theorem execLw_inRange {rt rs : Reg} {imm : BitVec 16} (h : InRange (s.effectiveAddress rs imm)) :
    execLw rt rs imm s = .next (s.setReg rt (s.mem.wordAt (s.effectiveAddress rs imm).toNat)) := by
  simp only [execLw, State.memRead, if_pos h]

/-- The path of lw that leaves memory (R131, R172). -/
theorem execLw_outOfRange {rt rs : Reg} {imm : BitVec 16} (h : ¬ InRange (s.effectiveAddress rs imm)) :
    execLw rt rs imm s = .next (s.raiseOutOfBounds .load (s.effectiveAddress rs imm)) := by
  simp only [execLw, State.memRead, if_neg h]

/-- The in-range path of sw (R132). -/
theorem execSw_inRange {rt rs : Reg} {imm : BitVec 16} (h : InRange (s.effectiveAddress rs imm)) :
    execSw rt rs imm s = .next { s with mem := s.mem.setWord (s.effectiveAddress rs imm).toNat (s.reg rt) } := by
  simp only [execSw, State.memWrite, if_pos h]

/-- The path of sw that leaves memory (R132, R172). -/
theorem execSw_outOfRange {rt rs : Reg} {imm : BitVec 16} (h : ¬ InRange (s.effectiveAddress rs imm)) :
    execSw rt rs imm s = .next (s.raiseOutOfBounds .store (s.effectiveAddress rs imm)) := by
  simp only [execSw, State.memWrite, if_neg h]

/-- A branch changes at most the pc (R140). -/
theorem branchIf_eq_setPc (taken : Bool) (imm : BitVec 16) (s : State) :
    branchIf taken imm s = s.setPc (if taken then branchTarget s.pc imm else s.pc) := by
  cases taken <;> rfl

/-- The comparison of beq and bne (R141). -/
@[simp] theorem equalWords_eq_true {a b : Word} : equalWords a b = true ↔ a = b := by
  simp [equalWords]

/-- A state's run goes on exactly when its status is `Running`. -/
theorem State.runEnd?_eq_none : s.runEnd? = none ↔ s.status = .running := by
  unfold State.runEnd?
  split <;> simp_all

/-- What one step can do when it answers a next state: the run was going on, and the fetch left memory, or the word at
the pc was decoded and executed, or it was not recognized (R80). -/
theorem step_cases (h : step s = .next t) : s.status = .running ∧
    ((¬ InRange s.pc ∧ t = s.raiseOutOfBounds .fetch s.pc) ∨
      (InRange s.pc ∧ ∃ i, decode (s.mem.wordAt s.pc.toNat) = .instr i ∧ exec i s.advance = .next t) ∨
      (InRange s.pc ∧ ∃ w, decode (s.mem.wordAt s.pc.toNat) = .unrecognized w ∧
        t = s.advance.stop (.illegalInstruction w))) := by
  unfold step at h
  split at h
  · cases h
  · refine ⟨State.runEnd?_eq_none.1 ‹_›, ?_⟩
    split at h
    · cases h; exact .inl ⟨State.memRead_eq_none.1 ‹_›, rfl⟩
    · obtain ⟨hr, rfl⟩ := State.memRead_eq_some.1 ‹_›
      split at h
      · exact .inr (.inl ⟨hr, _, ‹_›, h⟩)
      · cases h; exact .inr (.inr ⟨hr, _, ‹_›, rfl⟩)

/-- What the Executor does with the state, by the kind of change: one register, the pc (and the link register), one
word of memory, or the status. -/
theorem exec_cases {i : Instr} (h : exec i s = .next t) :
    (∃ r v, destination? i = some r ∧ t = s.setReg r v) ∨
      (∃ v, t = s.setPc v) ∨
      (∃ v w, destination? i = some linkReg ∧ t = (s.setReg linkReg v).setPc w) ∨
      (∃ rt rs imm, i = .sw rt rs imm ∧ InRange (s.effectiveAddress rs imm) ∧
        t = { s with mem := s.mem.setWord (s.effectiveAddress rs imm).toNat (s.reg rt) }) ∨
      (∃ rt rs imm, i = .sw rt rs imm ∧ ¬ InRange (s.effectiveAddress rs imm) ∧
        t = s.raiseOutOfBounds .store (s.effectiveAddress rs imm)) ∨
      (∃ rt rs imm, i = .lw rt rs imm ∧ ¬ InRange (s.effectiveAddress rs imm) ∧
        t = s.raiseOutOfBounds .load (s.effectiveAddress rs imm)) ∨
      (i = .halt ∧ t = s.stop .halted) := by
  cases i
  case lw rt rs imm =>
    by_cases hr : InRange (s.effectiveAddress rs imm)
    · rw [exec, execLw_inRange hr] at h; cases h; exact .inl ⟨_, _, rfl, rfl⟩
    · rw [exec, execLw_outOfRange hr] at h; cases h
      exact .inr (.inr (.inr (.inr (.inr (.inl ⟨_, _, _, rfl, hr, rfl⟩)))))
  case sw rt rs imm =>
    by_cases hr : InRange (s.effectiveAddress rs imm)
    · rw [exec, execSw_inRange hr] at h; cases h
      exact .inr (.inr (.inr (.inl ⟨_, _, _, rfl, hr, rfl⟩)))
    · rw [exec, execSw_outOfRange hr] at h; cases h
      exact .inr (.inr (.inr (.inr (.inl ⟨_, _, _, rfl, hr, rfl⟩))))
  case halt => cases h; exact .inr (.inr (.inr (.inr (.inr (.inr ⟨rfl, rfl⟩)))))
  case jal => cases h; exact .inr (.inr (.inl ⟨_, _, rfl, rfl⟩))
  case j => cases h; exact .inr (.inl ⟨_, rfl⟩)
  case jr => cases h; exact .inr (.inl ⟨_, rfl⟩)
  case beq | bne => cases h; exact .inr (.inl ⟨_, branchIf_eq_setPc _ _ _⟩)
  all_goals cases h; exact .inl ⟨_, _, rfl, rfl⟩

/-- The effective address reads the base register only (R130). -/
theorem State.effectiveAddress_setReg_other {r rs : Reg} (h : r ≠ rs) (v : Word) (imm : BitVec 16) :
    (s.setReg r v).effectiveAddress rs imm = s.effectiveAddress rs imm := by
  rw [State.effectiveAddress, State.effectiveAddress, State.setReg_reg_other s v (Ne.symm h)]

/-! ### Chains of continuing steps (R84, R87) -/

@[simp] theorem stepsContinuing_zero : StepsContinuing 0 s t ↔ t = s := Iff.rfl

theorem stepsContinuing_succ {n : Nat} : StepsContinuing (n + 1) s t ↔
    ∃ v, step s = .next v ∧ v.status = .running ∧ StepsContinuing n v t := Iff.rfl

/-- A chain of continuing steps from a running state ends in a running state. -/
theorem StepsContinuing.running {n : Nat} (hs : s.status = .running) (h : StepsContinuing n s t) :
    t.status = .running := by
  induction n generalizing s with
  | zero => cases h; exact hs
  | succ n ih => obtain ⟨v, -, hv, hc⟩ := h; exact ih hv hc

end Sys2Proof.Machine
end

