-- ==== Sys2Proof/Laws/PerInstr.lean ====
section
/-! SUPPORT. Facts about every instruction as syntax, one lemma per constructor. -/

namespace Sys2Proof.Laws.TableRow

/-- The word an instruction encodes to lies in the instruction's row of the opcode table (`mask` and `match` columns). -/
def Statement (i : Instr) : Prop := encode i &&& i.tableMask = i.tableMatch

theorem add (rd rs rt : Reg) : Statement (.add rd rs rt) :=
  (assembleR_tableMask _ _ _ _ _ _).trans rfl

theorem sub (rd rs rt : Reg) : Statement (.sub rd rs rt) :=
  (assembleR_tableMask _ _ _ _ _ _).trans rfl

theorem and (rd rs rt : Reg) : Statement (.and rd rs rt) :=
  (assembleR_tableMask _ _ _ _ _ _).trans rfl

theorem or (rd rs rt : Reg) : Statement (.or rd rs rt) :=
  (assembleR_tableMask _ _ _ _ _ _).trans rfl

theorem nor (rd rs rt : Reg) : Statement (.nor rd rs rt) :=
  (assembleR_tableMask _ _ _ _ _ _).trans rfl

theorem sll (rd rt : Reg) (shamt : BitVec 5) : Statement (.sll rd rt shamt) :=
  (assembleR_tableMask _ _ _ _ _ _).trans rfl

theorem srl (rd rt : Reg) (shamt : BitVec 5) : Statement (.srl rd rt shamt) :=
  (assembleR_tableMask _ _ _ _ _ _).trans rfl

theorem sra (rd rt : Reg) (shamt : BitVec 5) : Statement (.sra rd rt shamt) :=
  (assembleR_tableMask _ _ _ _ _ _).trans rfl

theorem slt (rd rs rt : Reg) : Statement (.slt rd rs rt) :=
  (assembleR_tableMask _ _ _ _ _ _).trans rfl

theorem jr (rs : Reg) : Statement (.jr rs) :=
  (assembleR_tableMask _ _ _ _ _ _).trans rfl

theorem addi (rt rs : Reg) (imm : BitVec 16) : Statement (.addi rt rs imm) :=
  (assembleI_tableMask _ _ _ _).trans rfl

theorem andi (rt rs : Reg) (imm : BitVec 16) : Statement (.andi rt rs imm) :=
  (assembleI_tableMask _ _ _ _).trans rfl

theorem ori (rt rs : Reg) (imm : BitVec 16) : Statement (.ori rt rs imm) :=
  (assembleI_tableMask _ _ _ _).trans rfl

theorem slti (rt rs : Reg) (imm : BitVec 16) : Statement (.slti rt rs imm) :=
  (assembleI_tableMask _ _ _ _).trans rfl

theorem lw (rt rs : Reg) (imm : BitVec 16) : Statement (.lw rt rs imm) :=
  (assembleI_tableMask _ _ _ _).trans rfl

theorem sw (rt rs : Reg) (imm : BitVec 16) : Statement (.sw rt rs imm) :=
  (assembleI_tableMask _ _ _ _).trans rfl

theorem beq (rs rt : Reg) (imm : BitVec 16) : Statement (.beq rs rt imm) :=
  (assembleI_tableMask _ _ _ _).trans rfl

theorem bne (rs rt : Reg) (imm : BitVec 16) : Statement (.bne rs rt imm) :=
  (assembleI_tableMask _ _ _ _).trans rfl

theorem j (target : BitVec 26) : Statement (.j target) :=
  (assembleJ_tableMask _ _).trans rfl

theorem jal (target : BitVec 26) : Statement (.jal target) :=
  (assembleJ_tableMask _ _).trans rfl

theorem halt : Statement .halt := rfl

end Sys2Proof.Laws.TableRow
end

