-- ==== Sys2Proof/Tests/Slice0.lean ====
section
/-! SUPPORT. Tests: small facts on fixed values taken from `spec/95_test_vectors.md` and the worked examples of the
section files, and a witness for the hypotheses of each statement that has some. -/

namespace Sys2Proof.Tests

open Sys2Proof Sys2Proof.Machine

/-- A running state with the named registers and bytes, everything else as after reset. -/
def state (pc : Word) (regs : List (Reg × Word)) (bytes : List (Nat × Byte)) : State :=
  let s := regs.foldl (fun s p => s.setReg p.1 p.2) State.reset
  { s with pc := pc, mem := bytes.foldl (fun m p => m.setByte p.1 p.2) [] }

/-- The state an outcome goes on to. -/
def after (o : Host.Outcome State Fault Refusal) : Option State :=
  match o with
  | .next t => some t
  | .fault _ => none
  | .refused _ => none

/-- One step from `s` with the word `w` at its pc. -/
def afterWord (s : State) (w : Nat) : Option State := after (step (s.withFetchWord 32 w))


/-! ### Decoding: each word is written out bit by bit from the encoding of its rule, most significant field first -/

theorem test_decode_add : decode 0b000000_01000_01001_01010_00000_100000#32 = .instr (.add 10 8 9) := by decide
theorem test_decode_sub : decode 0b000000_01000_01001_01010_00000_100010#32 = .instr (.sub 10 8 9) := by decide
theorem test_decode_and : decode 0b000000_01000_01001_01010_00000_100100#32 = .instr (.and 10 8 9) := by decide
theorem test_decode_or : decode 0b000000_01000_01001_01010_00000_100101#32 = .instr (.or 10 8 9) := by decide
theorem test_decode_nor : decode 0b000000_01000_01001_01010_00000_100111#32 = .instr (.nor 10 8 9) := by decide
theorem test_decode_slt : decode 0b000000_01000_01001_01010_00000_101010#32 = .instr (.slt 10 8 9) := by decide
theorem test_decode_sll : decode 0b000000_00000_01000_01001_00100_000000#32 = .instr (.sll 9 8 4) := by decide
theorem test_decode_srl : decode 0b000000_00000_01000_01001_00100_000010#32 = .instr (.srl 9 8 4) := by decide
theorem test_decode_sra : decode 0b000000_00000_01000_01001_00100_000011#32 = .instr (.sra 9 8 4) := by decide
theorem test_decode_jr : decode 0b000000_11111_00000_00000_00000_001000#32 = .instr (.jr 31) := by decide
theorem test_decode_addi : decode 0b001000_01000_01001_1111111111111111#32 = .instr (.addi 9 8 0xFFFF) := by decide
theorem test_decode_andi : decode 0b001100_01000_01001_1111111111111111#32 = .instr (.andi 9 8 0xFFFF) := by decide
theorem test_decode_ori : decode 0b001101_01000_01001_1111111111111111#32 = .instr (.ori 9 8 0xFFFF) := by decide
theorem test_decode_slti : decode 0b001010_01000_01001_1111111111111111#32 = .instr (.slti 9 8 0xFFFF) := by decide
theorem test_decode_lw : decode 0b100011_01000_01001_0000000000001000#32 = .instr (.lw 9 8 8) := by decide
theorem test_decode_sw : decode 0b101011_01000_01001_0000000000001000#32 = .instr (.sw 9 8 8) := by decide
theorem test_decode_beq : decode 0b000100_01000_01001_0000000000000011#32 = .instr (.beq 8 9 3) := by decide
theorem test_decode_bne : decode 0b000101_01000_01001_1111111111111110#32 = .instr (.bne 8 9 0xFFFE) := by decide
theorem test_decode_j : decode 0b000010_00000000000000010000000000#32 = .instr (.j 0x400) := by decide
theorem test_decode_jal : decode 0b000011_00000000000000010000000000#32 = .instr (.jal 0x400) := by decide
theorem test_decode_halt : decode 0b11111111111111111111111111111111#32 = .instr (.halt) := by decide

/-- One bit from halt, and MIPS's syscall and sync: rejected under their own word (spec/95 section 2). -/
theorem test_decode_unrecognized : decode 0xFFFFFFFE#32 = .unrecognized 0xFFFFFFFE#32 ∧
    decode 0x0000000C#32 = .unrecognized 0x0000000C#32 ∧ decode 0x0000000F#32 = .unrecognized 0x0000000F#32 ∧
    decode 0x04110000#32 = .unrecognized 0x04110000#32 := by decide

/-- Words that differ in ignored fields only decode alike (spec/95 section 2). -/
theorem test_decode_ignored_fields : decode 0x010957E0#32 = decode 0x01095020#32 ∧
    decode 0x03E84900#32 = decode 0x00084900#32 ∧ decode 0x03FFFFC8#32 = decode 0x03E00008#32 := by decide

/-- All eight fields of one word (spec/95 section 2, row `0x1500FFFD`). -/
theorem test_fields : (opcodeOf 0x1500FFFD, rsOf 0x1500FFFD, rtOf 0x1500FFFD, rdOf 0x1500FFFD, shamtOf 0x1500FFFD,
    functOf 0x1500FFFD, immOf 0x1500FFFD, targetOf 0x1500FFFD) =
      (0x05, 8, 0, 31, 31, 0x3D, 0xFFFD, 0x100FFFD) := by decide

/-- The encoder on one instruction of each format (spec/95 sections 3, 5 and 8). -/
theorem test_encode : encode (.add 10 8 9) = 0x01095020 ∧ encode (.sra 9 8 31) = 0x00084FC3 ∧
    encode (.addi 9 0 32) = 0x20090020 ∧ encode (.sw 9 0 0) = 0xAC090000 ∧ encode (.jal 0x400) = 0x0C000400 := by decide

theorem test_decodeTableWord : decodeTableWord 32 0x01095020 = some (.add 10 8 9) ∧
    decodeTableWord 32 0x0000000C = none := by decide

/-! ### Well-formedness: one ill-formed number for each field width, one program that is a word too long -/

theorem test_fieldFits_register : fieldFits 5 31 = true ∧ fieldFits 5 32 = false := by decide
theorem test_fieldFits_immediate : fieldFits 16 0xFFFF = true ∧ fieldFits 16 0x10000 = false := by decide
theorem test_fieldFits_target : fieldFits 26 0x3FFFFFF = true ∧ fieldFits 26 0x4000000 = false := by decide
theorem test_programFits : programFits 0xFFFF8 1 = true ∧ programFits 0xFFFF8 2 = false := by decide
theorem test_memory_wf : Memory.wf [(3, 0), (5, 1)] ∧ ¬ Memory.wf [(5, 1), (3, 0)] ∧ ¬ Memory.wf [(3, 0), (3, 1)] ∧
    ¬ Memory.wf [(0x100000, 0)] := by decide

/-! ### One step of each instruction (spec/95 sections 3 to 9) -/

theorem test_add_wraps_without_trap :
    (afterWord (state 0x1000 [(8, 0x7FFFFFFF), (9, 1)] []) 0x01095020).map (fun t => (t.reg 10, t.pc, t.status)) = some (0x80000000, 0x1004, .running) := by decide
theorem test_add_writes_register_zero :
    (afterWord (state 0x1000 [(8, 9), (0, 0)] []) 0x01000020).map (fun t => t.reg 0) = some 9 := by decide
theorem test_sub_wraps :
    (afterWord (state 0x1000 [(8, 0), (9, 1)] []) 0x01095022).map (fun t => t.reg 10) = some 0xFFFFFFFF := by decide
theorem test_sub_order :
    (afterWord (state 0x1000 [(8, 0x12345678), (9, 0x0F0F0F0F)] []) 0x01095022).map (fun t => t.reg 10) = some 0x03254769 := by decide
theorem test_and :
    (afterWord (state 0x1000 [(8, 0x12345678), (9, 0x0F0F0F0F)] []) 0x01095024).map (fun t => t.reg 10) = some 0x02040608 := by decide
theorem test_or :
    (afterWord (state 0x1000 [(8, 0x12345678), (9, 0x0F0F0F0F)] []) 0x01095025).map (fun t => t.reg 10) = some 0x1F3F5F7F := by decide
theorem test_nor :
    (afterWord (state 0x1000 [(8, 0x12345678), (9, 0x0F0F0F0F)] []) 0x01095027).map (fun t => t.reg 10) = some 0xE0C0A080 := by decide
theorem test_nor_same_register :
    (afterWord (state 0x1000 [(8, 0x0000FFFF)] []) 0x01084027).map (fun t => t.reg 8) = some 0xFFFF0000 := by decide
theorem test_slt_not_sign_of_difference :
    (afterWord (state 0x1000 [(8, 0x80000000), (9, 0x7FFFFFFF)] []) 0x0109502A).map (fun t => t.reg 10) = some 1 := by decide
theorem test_slt_signed :
    (afterWord (state 0x1000 [(8, 1), (9, 0xFFFFFFFF)] []) 0x0109502A).map (fun t => t.reg 10) = some 0 := by decide
theorem test_sll :
    (afterWord (state 0x1000 [(8, 0x80000001)] []) 0x00084840).map (fun t => t.reg 9) = some 2 := by decide
theorem test_sll_31 :
    (afterWord (state 0x1000 [(8, 0x7FFFFFFF)] []) 0x00084FC0).map (fun t => t.reg 9) = some 0x80000000 := by decide
theorem test_srl_31 :
    (afterWord (state 0x1000 [(8, 0x80000001)] []) 0x00084FC2).map (fun t => t.reg 9) = some 1 := by decide
theorem test_srl_16 :
    (afterWord (state 0x1000 [(8, 0xDEADBEEF)] []) 0x00084C02).map (fun t => t.reg 9) = some 0x0000DEAD := by decide
theorem test_sra_rounds_down :
    (afterWord (state 0x1000 [(8, 0xFFFFFFF9)] []) 0x00084843).map (fun t => t.reg 9) = some 0xFFFFFFFC := by decide
theorem test_sra_31 :
    (afterWord (state 0x1000 [(8, 0x80000001)] []) 0x00084FC3).map (fun t => t.reg 9) = some 0xFFFFFFFF := by decide
theorem test_addi_sign_extends :
    (afterWord (state 0x1000 [(8, 5)] []) 0x2109FFFF).map (fun t => t.reg 9) = some 4 := by decide
theorem test_addi_register_zero :
    (afterWord (state 0x1000 [(0, 0)] []) 0x20000007).map (fun t => t.reg 0) = some 7 := by decide
theorem test_andi_zero_extends :
    (afterWord (state 0x1000 [(8, 0x12345678)] []) 0x3109FFFF).map (fun t => t.reg 9) = some 0x00005678 := by decide
theorem test_ori_zero_extends :
    (afterWord (state 0x1000 [(8, 0)] []) 0x35098000).map (fun t => t.reg 9) = some 0x00008000 := by decide
theorem test_slti_less :
    (afterWord (state 0x1000 [(8, 0xFFFF8000)] []) 0x2909FFFF).map (fun t => t.reg 9) = some 1 := by decide
theorem test_slti_not_less :
    (afterWord (state 0x1000 [(8, 5)] []) 0x2909FFFF).map (fun t => t.reg 9) = some 0 := by decide
theorem test_lw_misaligned :
    (afterWord (state 0x1000 [(8, 0x200)] [(0x200, 0x11), (0x201, 0x22), (0x202, 0x33), (0x203, 0x44), (0x204, 0x55)]) 0x8D090001).map (fun t => t.reg 9) = some 0x22334455 := by decide
theorem test_lw_outside_memory :
    (afterWord (state 0x1000 [(8, 0x000FFFF0), (9, 0x55)] []) 0x8D09000D).map (fun t => (t.reg 9, t.pc, t.status)) = some (0x55, 0x1004, .fault (.outOfBounds .load 0x000FFFFD)) := by decide
theorem test_sw_big_endian :
    (afterWord (state 0x1000 [(8, 0x100), (9, 0x12345678)] []) 0xAD090008).map (fun t => [0x108, 0x109, 0x10A, 0x10B].map t.mem.byteAt) = some [0x12, 0x34, 0x56, 0x78] := by decide
theorem test_sw_outside_memory :
    (afterWord (state 0x1000 [(8, 0x000FFFF0)] []) 0xAD09000D).map (fun t => (t.pc, t.status, t.mem.listed? 0xFFFFD)) = some (0x1004, .fault (.outOfBounds .store 0x000FFFFD), none) := by decide
theorem test_beq_taken_backward :
    (afterWord (state 0x2000 [(8, 0xFFFFFFFF), (9, 0xFFFFFFFF)] []) 0x11098000).map (fun t => t.pc) = some 0xFFFE2004 := by decide
theorem test_beq_not_taken :
    (afterWord (state 0x1000 [(8, 7), (9, 8)] []) 0x11090003).map (fun t => t.pc) = some 0x1004 := by decide
theorem test_bne_taken :
    (afterWord (state 0x8 [(8, 3), (9, 4)] []) 0x1509FFF0).map (fun t => t.pc) = some 0xFFFFFFCC := by decide
theorem test_bne_not_taken :
    (afterWord (state 0x1000 [(8, 7), (9, 7)] []) 0x15090003).map (fun t => t.pc) = some 0x1004 := by decide
theorem test_j :
    (afterWord (state 0x1000 [(31, 5)] []) 0x08000400).map (fun t => (t.pc, t.reg 31)) = some (0x1000, 5) := by decide
theorem test_jal_last_word :
    (afterWord (state 0xFFFFC [] []) 0x0C000000).map (fun t => (t.pc, t.reg 31)) = some (0, 0x00100000) := by decide
theorem test_jal :
    (afterWord (state 0x1000 [] []) 0x0C000400).map (fun t => (t.pc, t.reg 31)) = some (0x1000, 0x1004) := by decide
theorem test_jr_misaligned :
    (afterWord (state 0x1000 [(8, 0x2002)] []) 0x01000008).map (fun t => t.pc) = some 0x2002 := by decide
theorem test_halt :
    (afterWord (state 0x1008 [] []) 0xFFFFFFFF).map (fun t => (t.pc, t.status)) = some (0x100C, .halted) := by decide
theorem test_unrecognized :
    (afterWord (state 0x1008 [] []) 0x0000000C).map (fun t => (t.pc, t.status)) = some (0x100C, .illegalInstruction 0x0000000C) := by decide
theorem test_fetch_misaligned_halt :
    (after (step (state 0x1002 [] [(0x1002, 0xFF), (0x1003, 0xFF), (0x1004, 0xFF), (0x1005, 0xFF)]))).map
      (fun t => (t.pc, t.status)) = some (0x1006, .halted) := by decide
theorem test_fetch_outside_memory :
    (after (step (state 0x000FFFFD [] []))).map (fun t => (t.pc, t.status)) =
      some (0x000FFFFD, .fault (.outOfBounds .fetch 0x000FFFFD)) := by decide
theorem test_no_step_after_halt : after (step ((state 0x1008 [] []).stop .halted)) = none := by decide

/-- The two readings of the immediate of lw and sw (spec/95 section 6, second row). -/
theorem test_addressWith : addressWith .sign 0x100 0xFFFC = 0x000000FC ∧
    addressWith .zero 0x100 0xFFFC = 0x000100FC := by decide

theorem test_inspect : (state 0 [(9, 3)] [(4, 7), (5, 8)]).inspectReg? "t1" = some 3 ∧
    (state 0 [(9, 3)] [(4, 7), (5, 8)]).inspectReg? "x9" = none ∧
    (state 0 [] [(4, 7), (5, 8)]).inspectBytes? 4 2 = some [7, 8] := by decide

theorem test_first_step_from_reset :
    (afterWord State.reset 0x20090020).map (fun t => (t.reg 9, t.pc)) = some (32, 4) := by decide

/-! ### Witnesses: a state and operands that meet the hypotheses of each statement that has some -/

/-- A running state about to execute the word `w` from `0x1000`. -/
def ready (regs : List (Reg × Word)) (w : Nat) : State := (state 0x1000 regs []).withFetchWord 32 w

theorem test_witness_EncodeOfDecode : decode 0x010957E0#32 = .instr (.add 10 8 9) := by decide
theorem test_witness_DecodedWordMatchesTable : decode 0x03FFFFC8#32 = .instr (.jr 31) := by decide
theorem test_witness_IgnoredFieldsDoNotMatter : decode 0x01095020#32 = .instr (.add 10 8 9) ∧
    0x01095020#32 &&& (Instr.add 10 8 9).usedMask = 0x010957E0#32 &&& (Instr.add 10 8 9).usedMask := by decide
theorem test_witness_UnrecognizedWordsExactly : decode 0x04000000#32 = .unrecognized 0x04000000#32 := by decide
theorem test_witness_FieldsReassembleWord : opcodeOf 0x012A4FE0#32 = opcodeOf 0x012A4FE0#32 ∧
    targetOf 0x0BFFFFFF#32 = targetOf 0x0BFFFFFF#32 := by decide

theorem test_witness_LwInRangeLoadsWord : ((ready [(8, 0xFFFF0)] 0).effectiveAddress 8 0xC).toNat ≤ 0xFFFFC := by decide
theorem test_witness_LwOutOfRangeFaults : 0xFFFFC < ((ready [(8, 0xFFFF0)] 0).effectiveAddress 8 0xD).toNat := by decide
theorem test_witness_SwInRangeStoresWord : ((ready [(8, 0x100000)] 0).effectiveAddress 8 0xFFFC).toNat ≤ 0xFFFFC := by decide
theorem test_witness_SwOutOfRangeFaults : 0xFFFFC < ((ready [] 0).effectiveAddress 0 0xFFFC).toNat := by decide
theorem test_witness_ExtensionReadingsAgreeBelow0x8000 : (0x7FFF#16).toNat < 0x8000 := by decide
theorem test_witness_MemReadIsBigEndian_and_MemWriteIsBigEndian : (0xFFFFC#32).toNat ≤ 0xFFFFC ∧ 0xFFFFC < (0xFFFFD#32).toNat := by decide

/-- Both parts of the round trip, with a second store that just touches the first word's end. -/
theorem test_witness_StoreThenLoadReturnsValue : InRange 0x108#32 ∧ (0x108#32).toNat + 4 ≤ (0x10C#32).toNat ∧
    ((ready [] 0).mem.setWord 0x108 5).wordAt 0x108 = 5#32 ∧
    (after (exec (.sw 9 8 8) (ready [(8, 0x100), (9, 7)] 0))).map (fun t => t.effectiveAddress 8 8) =
      some ((ready [(8, 0x100), (9, 7)] 0).effectiveAddress 8 8) ∧
    InRange ((ready [(8, 0x100), (9, 7)] 0).effectiveAddress 8 8) := by decide
theorem test_witness_OverlappingReadSeesBytes : (0xFFFFB#32).toNat + 1 ≤ 0xFFFFC ∧
    ((ready [] 0).memWrite 0xFFFFB#32 7#32).isSome = true := by decide

theorem test_witness_OnlySwWritesMemory : (∀ rt rs imm, Instr.add 10 8 9 ≠ .sw rt rs imm) ∧
    ∃ t, exec (.add 10 8 9) State.reset = .next t := ⟨fun _ _ _ h => (nomatch h), _, rfl⟩
/-- The one clause with a hypothesis: a change of status. -/
theorem test_witness_EveryInstructionCompletes :
    (after (exec .halt (ready [] 0))).map State.status = some .halted ∧ (ready [] 0).status = .running := by decide
theorem test_witness_OnlyDestinationWritten : (∃ t, exec (.jal 4) State.reset = .next t) ∧
    destination? (.jal 4) ≠ some 30 := ⟨⟨_, rfl⟩, by decide⟩
theorem test_witness_OnlySourcesRead : (10#5 : Reg) ∉ sources (.add 10 8 9) ∧
    ∃ t, exec (.add 10 8 9) State.reset = .next t := ⟨by decide, _, rfl⟩
/-- The clauses on `r` itself: a destination, no destination, and an lw outside memory. -/
theorem test_witness_OnlySourcesRead_clauses : destination? (.add 10 8 9) = some 10 ∧ destination? (.sw 9 8 0) ≠ some 10 ∧
    (10#5 : Reg) ∉ sources (.sw 9 8 0) ∧ (10#5 : Reg) ∉ sources (.lw 10 8 0xD) ∧
    ¬ InRange ((ready [(8, 0xFFFF0)] 0).effectiveAddress 8 0xD) := by decide
theorem test_witness_OnlyLwReadsMemory : (∀ rt rs imm, Instr.j 4 ≠ .lw rt rs imm) ∧
    ∃ t, exec (.j 4) State.reset = .next t := ⟨fun _ _ _ h => (nomatch h), _, rfl⟩

theorem test_witness_StepRunsDecodedInstruction : (ready [] 0x01095020).status = .running ∧ InRange (ready [] 0x01095020).pc ∧
    decodeBytes ((ready [] 0x01095020).mem.byteAt 0x1000) ((ready [] 0x01095020).mem.byteAt 0x1001)
      ((ready [] 0x01095020).mem.byteAt 0x1002) ((ready [] 0x01095020).mem.byteAt 0x1003) =
      .instr (.add 10 8 9) := by decide
theorem test_witness_StepFetchOutOfRangeFaults : (state 0xFFFFD [] []).status = .running ∧
    0xFFFFC < (state 0xFFFFD [] []).pc.toNat := by decide
theorem test_witness_StepUnrecognizedWordEndsRun : (ready [] 0xC).status = .running ∧
    (ready [] 0xC).memRead (ready [] 0xC).pc = some 0xC ∧ decode 0xC#32 = .unrecognized 0xC#32 := by decide
theorem test_witness_StepGoesOnExactlyWhileRunning : ((ready [] 0).stop .halted).status = .halted ∧
    ((ready [] 0).stop (.illegalInstruction 0xC)).status = .illegalInstruction 0xC ∧
    ((ready [] 0).raiseOutOfBounds .load 0xFFFFD).status = .fault (.outOfBounds .load 0xFFFFD) := by decide
theorem test_witness_NonTransferAdvancesPcByFour : (after (step (ready [] 0x20090020))).isSome = true ∧ InRange (ready [] 0x20090020).pc ∧
    decode ((ready [] 0x20090020).mem.wordAt 0x1000) = .instr (.addi 9 0 32) ∧
    isTransfer (.addi 9 0 32) = false := by decide
theorem test_witness_PcStaysAlignedButForJr : (after (step (ready [] 0x0C000400))).isSome = true ∧
    (ready [] 0x0C000400).pc.toNat % 4 = 0 ∧
    decode ((ready [] 0x0C000400).mem.wordAt 0x1000) = .instr (.jal 0x400) := by decide

/-- `sw t0, 4(zr)` from address 0, storing the word of `add t2, t0, t1` where the next step fetches. -/
theorem test_witness_StoreIsSeenByNextFetch : ((state 0 [(8, 0x01095020)] []).withFetchWord 32 0xAC080004).status = .running ∧
    decode (((state 0 [(8, 0x01095020)] []).withFetchWord 32 0xAC080004).mem.wordAt 0) = .instr (.sw 8 0 4) ∧
    InRange ((state 0 [(8, 0x01095020)] []).effectiveAddress 0 4) ∧
    (state 0 [(8, 0x01095020)] []).effectiveAddress 0 4 = (state 0 [] []).pc + 4 ∧
    decode ((state 0 [(8, 0x01095020)] []).reg 8) = .instr (.add 10 8 9) := by decide
theorem test_witness_StepKeepsMemoryCanonical : (ready [(9, 7)] 0xAC090000).MemoryCanonical ∧
    (after (step (ready [(9, 7)] 0xAC090000))).isSome = true := by decide
theorem test_witness_StepKeepsEndExplained : (ready [] 0xFFFFFFFF).EndExplained ∧
    (after (step (ready [] 0xFFFFFFFF))).isSome = true := ⟨trivial, by decide⟩
theorem test_witness_RunEndIsFinal_converse : (ready [] 0xFFFFFFFF).status = .running ∧
    StepsContinuing 0 (ready [] 0xFFFFFFFF) (ready [] 0xFFFFFFFF) ∧
    (after (step (ready [] 0xFFFFFFFF))).map State.status = some .halted := ⟨by decide, rfl, by decide⟩
theorem test_witness_RunEndIsFinal : (runToEnd 2 (ready [] 0xFFFFFFFF)).map (fun r => (r.1.pc, r.1.status, r.2)) =
    some (0x1004, .halted, 0) := by decide
theorem test_witness_LoaderPlacesProgramAndHalt : (0#32).toNat + 4 * ([0x20090020#32].length + 1) ≤ 0x100000 ∧
    0x100000 < (0xFFFFC#32).toNat + 4 * ([0x20090020#32].length + 1) := by decide
theorem test_witness_InspectedBytesInOrder : 0xFFFFE + 2 ≤ 0x100000 := by decide

end Sys2Proof.Tests
end

section
/-! PROOFS, family `10_state.md`, part 1: what the Executor does with memory and with the pc, said once, and the
statements on every step that follow from it. -/

namespace Sys2Proof.Machine

variable {s t : State} {i : Instr}

/-! ### Memory stays canonical (R23, R36) -/

/-- What the Executor can do with memory: nothing, or one word stored by an `sw` that stays in memory (R30, R36). -/
theorem exec_mem_cases (h : exec i s = .next t) :
    t.mem = s.mem ∨
      ∃ rt rs imm, i = .sw rt rs imm ∧ InRange (s.effectiveAddress rs imm) ∧
        t.mem = s.mem.setWord (s.effectiveAddress rs imm).toNat (s.reg rt) := by
  obtain ⟨r, v, -, rfl⟩ | ⟨v, rfl⟩ | ⟨v, w, -, rfl⟩ | ⟨rt, rs, imm, rfl, hr, rfl⟩ | ⟨rt, rs, imm, -, -, rfl⟩ |
    ⟨rt, rs, imm, -, -, rfl⟩ | ⟨-, rfl⟩ := exec_cases h
  case inr.inr.inr.inl => exact .inr ⟨rt, rs, imm, rfl, hr, rfl⟩
  all_goals exact .inl rfl

theorem exec_keeps_memoryCanonical (hs : s.MemoryCanonical) (h : exec i s = .next t) : t.MemoryCanonical := by
  unfold State.MemoryCanonical
  obtain hm | ⟨rt, rs, imm, -, hr, hm⟩ := exec_mem_cases h
  · exact hm ▸ hs
  · exact hm ▸ Memory.wf_setWord hs hr

/-- Settles O49: a step that does not reach the Executor leaves memory alone. -/
theorem stepKeepsMemoryCanonical : Obligations.StepKeepsMemoryCanonical := by
  intro s t hs h
  obtain ⟨-, ⟨-, rfl⟩ | ⟨-, i, -, hi⟩ | ⟨-, w, -, rfl⟩⟩ := step_cases h
  · exact hs
  · exact exec_keeps_memoryCanonical (s := s.advance) hs hi
  · exact hs

/-- Settles O50. -/
theorem resetMemoryCanonical : Obligations.ResetMemoryCanonical :=
  ⟨List.Pairwise.nil, fun _ hc => absurd hc List.not_mem_nil⟩

/-! ### The pc (R18, R19) -/

/-- A load leaves the pc alone, in range or not (R131). -/
theorem execLw_pc {rt rs : Reg} {imm : BitVec 16} (h : execLw rt rs imm s = .next t) : t.pc = s.pc := by
  by_cases hr : InRange (s.effectiveAddress rs imm)
  · rw [execLw_inRange hr] at h; cases h; rfl
  · rw [execLw_outOfRange hr] at h; cases h; rfl

/-- A store leaves the pc alone, in range or not (R132). -/
theorem execSw_pc {rt rs : Reg} {imm : BitVec 16} (h : execSw rt rs imm s = .next t) : t.pc = s.pc := by
  by_cases hr : InRange (s.effectiveAddress rs imm)
  · rw [execSw_inRange hr] at h; cases h; rfl
  · rw [execSw_outOfRange hr] at h; cases h; rfl

/-- What the Executor can do with the pc: leave it, or, for a transfer only, set it to a register's value (`jr`), a
branch target or a jump target (R18). -/
theorem exec_pc_cases (h : exec i s = .next t) :
    t.pc = s.pc ∨
      isTransfer i = true ∧
        ((∃ rs, i = .jr rs) ∨ (∃ imm, t.pc = branchTarget s.pc imm) ∨ ∃ target, t.pc = jumpTarget s.pc target) := by
  cases i
  case lw => exact .inl (execLw_pc h)
  case sw => exact .inl (execSw_pc h)
  case jr rs => exact .inr ⟨rfl, .inl ⟨rs, rfl⟩⟩
  case beq rs rt imm | bne rs rt imm =>
    cases h
    rw [branchIf_eq_setPc, State.setPc_pc]
    split
    · exact .inr ⟨rfl, .inr (.inl ⟨imm, rfl⟩)⟩
    · exact .inl rfl
  case j target | jal target => cases h; exact .inr ⟨rfl, .inr (.inr ⟨target, rfl⟩)⟩
  all_goals cases h; exact .inl rfl

/-- Settles O46: the pc was advanced before the Executor saw the word, and only a transfer changes it after. -/
theorem nonTransferAdvancesPcByFour : Obligations.NonTransferAdvancesPcByFour := by
  intro s t h hr hn
  obtain ⟨-, ⟨hnr, -⟩ | ⟨-, i, hd, hi⟩ | ⟨-, w, -, rfl⟩⟩ := step_cases h
  · exact absurd hr hnr
  · obtain hpc | ⟨htr, -⟩ := exec_pc_cases hi
    · exact hpc
    · exact absurd htr (by simp [hn i hd])
  · rfl

/-- The increment of the pc keeps it a multiple of 4, also where it wraps (R19, R82). -/
theorem aligned_add_four {pc : Word} (h : pc.toNat % 4 = 0) : (pc + 4#32).toNat % 4 = 0 := by
  rw [BitVec.toNat_add, BitVec.toNat_ofNat]; omega

/-- A branch target is a multiple of 4 away from the pc it starts from (R140). -/
theorem aligned_branchTarget {pc : Word} (h : pc.toNat % 4 = 0) (imm : BitVec 16) :
    (branchTarget pc imm).toNat % 4 = 0 := by
  rw [branchTarget, BitVec.toNat_add, BitVec.toNat_shiftLeft, Nat.shiftLeft_eq]; omega

/-- A jump target is a multiple of 4 whatever the pc: both of its parts have their two low bits clear (R150). -/
theorem aligned_jumpTarget (pc : Word) (target : BitVec 26) : (jumpTarget pc target).toNat % 4 = 0 := by
  have hlow : (pc.toNat &&& 0xF0000000) % 2 ^ 2 = 0 := by
    rw [Nat.and_mod_two_pow]; exact Nat.and_zero _
  have hfield : (target.setWidth 32 <<< 2 : Word).toNat % 2 ^ 2 = 0 := by
    rw [BitVec.toNat_shiftLeft, Nat.shiftLeft_eq]; omega
  show (jumpTarget pc target).toNat % 2 ^ 2 = 0
  rw [jumpTarget, BitVec.toNat_or, Nat.or_mod_two_pow, hfield, Nat.or_zero, BitVec.toNat_and]
  exact hlow

/-- Settles O47: of all the ways to set the pc, only `jr` takes a value that need not be aligned. -/
theorem pcStaysAlignedButForJr : Obligations.PcStaysAlignedButForJr := by
  intro s t h ha hjr
  obtain ⟨-, ⟨-, rfl⟩ | ⟨-, i, hd, hi⟩ | ⟨-, w, -, rfl⟩⟩ := step_cases h
  · exact ha
  · have hpcf : s.advance.pc.toNat % 4 = 0 := aligned_add_four ha
    obtain hpc | ⟨-, ⟨rs, rfl⟩ | ⟨imm, hpc⟩ | ⟨target, hpc⟩⟩ := exec_pc_cases hi
    · exact hpc ▸ hpcf
    · exact absurd hd (hjr rs)
    · exact hpc ▸ aligned_branchTarget hpcf imm
    · exact hpc ▸ aligned_jumpTarget _ target
  · exact aligned_add_four ha

end Sys2Proof.Machine
end

section
/-! PROOFS, family `10_state.md`, part 2: which registers an instruction writes and reads (R14). -/

namespace Sys2Proof.Machine

variable {s t : State} {i : Instr} {r : Reg} {v : Word}

/-- Settles O39, by the kinds of change the Executor can make. -/
theorem onlyDestinationWritten : Obligations.OnlyDestinationWritten := by
  intro i s t h r hr
  obtain ⟨d, v, hd, rfl⟩ | ⟨v, rfl⟩ | ⟨v, w, hd, rfl⟩ | ⟨rt, rs, imm, -, -, rfl⟩ | ⟨rt, rs, imm, -, -, rfl⟩ |
    ⟨rt, rs, imm, -, -, rfl⟩ | ⟨-, rfl⟩ := exec_cases h
  case inl | inr.inr.inl => exact s.setReg_reg_other v fun e => hr (e ▸ hd)
  all_goals rfl

/-! ### A register changed before an instruction -/

/-- The register that an instruction really writes in a state: its destination of R14's table, unless it is an `lw`
whose address leaves memory, which writes none (R172, D7). -/
def writtenReg? (s : State) : Instr → Option Reg
  | .lw rt rs imm => if InRange (s.effectiveAddress rs imm) then some rt else none
  | i => destination? i

/-- No register is written but the destination. -/
theorem destination?_of_writtenReg? (h : writtenReg? s i = some r) : destination? i = some r := by
  cases i
  case lw rt rs imm =>
    simp only [writtenReg?, Option.ite_none_right_eq_some] at h
    exact h.2
  all_goals exact h

/-- Where no `lw` faults, the destination is written. -/
theorem writtenReg?_eq_destination? (h : ∀ rt rs imm, i = .lw rt rs imm → InRange (s.effectiveAddress rs imm)) :
    writtenReg? s i = destination? i := by
  cases i
  case lw rt rs imm => exact if_pos (h rt rs imm rfl)
  all_goals rfl

/-- An `lw` outside memory writes no register (R172). -/
theorem writtenReg?_lw_outOfRange {rt rs : Reg} {imm : BitVec 16} (h : ¬ InRange (s.effectiveAddress rs imm)) :
    writtenReg? s (.lw rt rs imm) = none :=
  if_neg h

/-- The state `t` that an instruction ends in, given that the register `r` held `v` before it: `r` still holds `v`
unless it is the written register `d`. -/
def State.withReg (t : State) (d : Option Reg) (r : Reg) (v : Word) : State :=
  if d = some r then t else t.setReg r v

/-- A register write hides an earlier one to the same register and changes places with one to another. -/
theorem State.setReg_setReg (s : State) (r d : Reg) (v w : Word) :
    (s.setReg r v).setReg d w = (s.setReg d w).withReg (some d) r v := by
  by_cases hd : d = r
  · subst d
    simp [State.withReg, State.setReg]
  · have hn : r.toNat ≠ d.toNat := fun e => hd (BitVec.eq_of_toNat_eq e.symm)
    simp [State.withReg, State.setReg, hd, Vector.set_comm _ _ hn]

@[simp] theorem State.withReg_pc (t : State) (d : Option Reg) (r : Reg) (v : Word) :
    (t.withReg d r v).pc = t.pc := by
  unfold State.withReg; split <;> rfl

@[simp] theorem State.withReg_mem (t : State) (d : Option Reg) (r : Reg) (v : Word) :
    (t.withReg d r v).mem = t.mem := by
  unfold State.withReg; split <;> rfl

@[simp] theorem State.withReg_status (t : State) (d : Option Reg) (r : Reg) (v : Word) :
    (t.withReg d r v).status = t.status := by
  unfold State.withReg; split <;> rfl

theorem State.withReg_reg_other (t : State) (d : Option Reg) (v : Word) {r q : Reg} (h : q ≠ r) :
    (t.withReg d r v).reg q = t.reg q := by
  unfold State.withReg
  split
  · rfl
  · exact t.setReg_reg_other v h

theorem State.withReg_reg_written (t : State) (v : Word) {d : Option Reg} (h : d = some r) :
    (t.withReg d r v).reg r = t.reg r := by
  rw [State.withReg, if_pos h]

theorem State.withReg_reg_unwritten (t : State) (v : Word) {d : Option Reg} (h : d ≠ some r) :
    (t.withReg d r v).reg r = v := by
  rw [State.withReg, if_neg h, State.setReg_reg_same]

/-! ### A register that is no source takes no part (R14): one lemma per shared operation -/

section NonSource

variable {rs rt : Reg}

theorem aluRegister_setReg (op : AluOp) (rd : Reg) (hs : r ≠ rs) (ht : r ≠ rt) :
    aluRegister op rd rs rt (s.setReg r v) = (aluRegister op rd rs rt s).withReg (some rd) r v := by
  rw [aluRegister, s.setReg_reg_other v hs.symm, s.setReg_reg_other v ht.symm, State.setReg_setReg,
    aluRegister]

theorem aluShift_setReg (op : AluOp) (rd : Reg) (n : BitVec 5) (ht : r ≠ rt) :
    aluShift op rd rt n (s.setReg r v) = (aluShift op rd rt n s).withReg (some rd) r v := by
  rw [aluShift, s.setReg_reg_other v ht.symm, State.setReg_setReg, aluShift]

theorem aluImmediate_setReg (op : AluOp) (d : Reg) (b : Word) (hs : r ≠ rs) :
    aluImmediate op d rs b (s.setReg r v) = (aluImmediate op d rs b s).withReg (some d) r v := by
  rw [aluImmediate, s.setReg_reg_other v hs.symm, State.setReg_setReg, aluImmediate]

/-- The comparison of a branch does not see the change of a register that it does not compare. -/
theorem equalWords_setReg (hs : r ≠ rs) (ht : r ≠ rt) :
    equalWords ((s.setReg r v).reg rs) ((s.setReg r v).reg rt) = equalWords (s.reg rs) (s.reg rt) := by
  rw [s.setReg_reg_other v hs.symm, s.setReg_reg_other v ht.symm]

theorem branchIf_setReg (taken : Bool) (imm : BitVec 16) :
    branchIf taken imm (s.setReg r v) = (branchIf taken imm s).setReg r v := by
  cases taken <;> rfl

theorem execLw_setReg {imm : BitVec 16} (hs : r ≠ rs) (h : execLw rt rs imm s = .next t) :
    execLw rt rs imm (s.setReg r v) = .next (t.withReg (writtenReg? s (.lw rt rs imm)) r v) := by
  have hea := State.effectiveAddress_setReg_other (s := s) hs v imm
  by_cases hr : InRange (s.effectiveAddress rs imm)
  · rw [execLw_inRange hr] at h
    cases h
    rw [execLw_inRange (hea ▸ hr), hea, State.setReg_mem, State.setReg_setReg, writtenReg?, if_pos hr]
  · rw [execLw_outOfRange hr] at h
    cases h
    rw [execLw_outOfRange (hea ▸ hr), hea, writtenReg?_lw_outOfRange hr]
    rfl

theorem execSw_setReg {imm : BitVec 16} (hs : r ≠ rs) (ht : r ≠ rt) (h : execSw rt rs imm s = .next t) :
    execSw rt rs imm (s.setReg r v) = .next (t.setReg r v) := by
  have hea := State.effectiveAddress_setReg_other (s := s) hs v imm
  by_cases hr : InRange (s.effectiveAddress rs imm)
  · rw [execSw_inRange hr] at h
    cases h
    rw [execSw_inRange (hea ▸ hr), hea, State.setReg_mem, s.setReg_reg_other v ht.symm]
    rfl
  · rw [execSw_outOfRange hr] at h
    cases h
    rw [execSw_outOfRange (hea ▸ hr), hea]
    rfl

theorem execJr_setReg (hs : r ≠ rs) : execJr rs (s.setReg r v) = .next ((s.setPc (s.reg rs)).setReg r v) := by
  rw [execJr, s.setReg_reg_other v hs.symm]
  rfl

theorem execJal_setReg (target : BitVec 26) : execJal target (s.setReg r v) =
    .next (((s.setReg linkReg s.pc).setPc (jumpTarget s.pc target)).withReg (some linkReg) r v) := by
  rw [execJal, State.setReg_setReg, State.setReg_pc]
  unfold State.withReg
  split <;> rfl

end NonSource

/-- Noninterference, whole: changing a register that is no source changes the outcome in that register only, and there
only where the instruction does not write it. -/
theorem exec_setReg_of_not_source (v : Word) (hr : r ∉ sources i) (h : exec i s = .next t) :
    exec i (s.setReg r v) = .next (t.withReg (writtenReg? s i) r v) := by
  cases i <;> simp only [sources, List.mem_cons, List.not_mem_nil, or_false, not_or, not_false_eq_true] at hr
  case lw => exact execLw_setReg hr h
  case sw => exact execSw_setReg hr.1 hr.2 h
  case jr => cases h; exact execJr_setReg hr
  case j | halt => cases h; rfl
  case jal target => cases h; exact execJal_setReg target
  case beq | bne =>
    cases h
    simp only [exec, execBeq, execBne, equalWords_setReg hr.1 hr.2, branchIf_setReg]
    rfl
  case sll | srl | sra => cases h; exact congrArg _ (aluShift_setReg _ _ _ hr)
  case addi | andi | ori | slti => cases h; exact congrArg _ (aluImmediate_setReg _ _ _ hr)
  case add | sub | and | or | nor | slt => cases h; exact congrArg _ (aluRegister_setReg _ _ hr.1 hr.2)

/-- Settles O40. -/
theorem onlySourcesRead : Obligations.OnlySourcesRead := by
  intro i s t r v hr h
  refine ⟨_, exec_setReg_of_not_source v hr h, t.withReg_pc .., t.withReg_status .., t.withReg_mem ..,
    fun q hq => t.withReg_reg_other _ v hq, fun hd hlw => ?_, fun hd => ?_⟩
  · exact t.withReg_reg_written v ((writtenReg?_eq_destination? hlw).trans hd)
  · refine t.withReg_reg_unwritten v fun hw => ?_
    obtain hd | ⟨rt, rs, imm, rfl, hout⟩ := hd
    · exact hd (destination?_of_writtenReg? hw)
    · rw [writtenReg?_lw_outOfRange hout] at hw
      cases hw

end Sys2Proof.Machine
end

section
/-! PROOFS, family `10_state.md`, part 3: reset and the host's inspection surface (R12, R26, R28, R29, R190). -/

namespace Sys2Proof.Machine

/-- A register of the reset state for given parameters is `REG_RESET`'s (R26). -/
theorem State.resetWith_reg (pc : Word) (regs : Vector Word 32) (r : Reg) :
    (State.resetWith pc regs).reg r = regs[r.toNat]'r.isLt := rfl

/-- A byte of the reset state's memory is `MEM_INIT`'s: nothing is listed (R29). -/
theorem State.resetWith_byteAt (pc : Word) (regs : Vector Word 32) (a : Nat) :
    (State.resetWith pc regs).mem.byteAt a = Config.memInit a := rfl

/-- Settles O54. -/
theorem resetFollowsParameters : Obligations.ResetFollowsParameters :=
  ⟨fun pc regs => ⟨rfl, rfl, State.resetWith_reg pc regs, State.resetWith_byteAt pc regs⟩, rfl, by decide⟩

/-- Settles O57, by running through the 32 names. -/
theorem registerNamesAreDistinct : Obligations.RegisterNamesAreDistinct :=
  ⟨by decide, by decide⟩

/-- A range read that stays in memory answers the bytes from the start address on (R28). -/
theorem State.inspectBytes?_inRange (s : State) {addr length : Nat} (h : addr + length ≤ Config.memSize) :
    s.inspectBytes? addr length = some ((List.range length).map fun k => s.mem.byteAt (addr + k)) :=
  if_pos h

/-- Settles O58. -/
theorem inspectedBytesInOrder : Obligations.InspectedBytesInOrder := by
  intro s addr length h
  refine ⟨_, s.inspectBytes?_inRange h, by simp, fun k hk => ?_⟩
  rw [List.getElem?_map, List.getElem?_range hk, Option.map_some]

end Sys2Proof.Machine
end

section
/-! PROOFS, family `20_memory.md`, part 1: the memory read and write of the load/store unit (R31, R32, R36, R46, R47). -/

namespace Sys2Proof.Machine

variable {s t : State} {addr v : Word}

/-! ### A word in memory, byte by byte -/

/-- The bound of R36 as a number: the last address at which a word lies in memory. -/
theorem inRange_iff : InRange addr ↔ addr.toNat ≤ 0xFFFFC := Iff.rfl

theorem not_inRange_iff : ¬ InRange addr ↔ 0xFFFFC < addr.toNat := Nat.not_le

/-- The value of the word at an address is the big-endian sum of its four bytes (R31). -/
theorem Memory.toNat_wordAt (m : Memory) (a : Nat) : (m.wordAt a).toNat =
    (m.byteAt a).toNat * 2 ^ 24 + (m.byteAt (a + 1)).toNat * 2 ^ 16 + (m.byteAt (a + 2)).toNat * 2 ^ 8 +
      (m.byteAt (a + 3)).toNat :=
  toNat_wordOfBytes ..

/-- The value of each byte of a stored word, most significant first (R32). -/
theorem Memory.toNat_byteAt_setWord (m : Memory) (a : Nat) (v : Word) {k : Nat} (hk : k < 4) :
    ((m.setWord a v).byteAt (a + k)).toNat = v.toNat / 2 ^ (8 * (3 - k)) % 2 ^ 8 := by
  rw [m.byteAt_setWord_inside v a hk, toNat_byteOfWord]

/-- A store changes nothing but its own four bytes (R32). -/
theorem sameButWord_setWord (s : State) (a : Nat) (v : Word) :
    SameButWord s { s with mem := s.mem.setWord a v } a :=
  ⟨fun _ => rfl, rfl, rfl, fun _ hb => s.mem.byteAt_setWord_outside v hb⟩

/-! ### MemRead and MemWrite -/

theorem State.memRead_inRange (s : State) (h : InRange addr) : s.memRead addr = some (s.mem.wordAt addr.toNat) :=
  if_pos h

theorem State.memWrite_inRange (s : State) (v : Word) (h : InRange addr) :
    s.memWrite addr v = some { s with mem := s.mem.setWord addr.toNat v } :=
  if_pos h

/-- The word just stored at an in-range address is the word read there (R46). -/
theorem State.memRead_setWord_same (s : State) (v : Word) (h : InRange addr) :
    { s with mem := s.mem.setWord addr.toNat v }.memRead addr = some v := by
  rw [State.memRead_inRange _ h, Memory.wordAt_setWord_same]

/-- A write that does not overlap the word at an address leaves the read there as it was (R46). -/
theorem State.memRead_of_memWrite_disjoint {addr' v' : Word} (h : s.memWrite addr' v' = some t)
    (hd : addr'.toNat + 4 ≤ addr.toNat ∨ addr.toNat + 4 ≤ addr'.toNat) : t.memRead addr = s.memRead addr := by
  obtain ⟨-, rfl⟩ := State.memWrite_eq_some.1 h
  rw [State.memRead, State.memRead, Memory.wordAt_setWord_disjoint _ _ hd.symm]

/-- Settles O27. -/
theorem memReadIsBigEndian : Obligations.MemReadIsBigEndian := fun s _ =>
  ⟨fun h => ⟨_, s.memRead_inRange h, s.mem.toNat_wordAt _⟩,
    fun h => State.memRead_eq_none.2 (not_inRange_iff.2 h)⟩

/-- Settles O28. -/
theorem memWriteIsBigEndian : Obligations.MemWriteIsBigEndian := fun s _ v =>
  ⟨fun h => ⟨_, s.memWrite_inRange v h, fun _ hk => s.mem.toNat_byteAt_setWord _ v hk, sameButWord_setWord s _ v⟩,
    fun h => State.memWrite_eq_none.2 (not_inRange_iff.2 h)⟩

/-- The word one byte above a stored word: the store's low three bytes and then the byte that stood after it (R47). -/
theorem Memory.toNat_wordAt_succ_setWord (m : Memory) (a : Nat) (v : Word) :
    ((m.setWord a v).wordAt (a + 1)).toNat = v.toNat % 2 ^ 24 * 2 ^ 8 + (m.byteAt (a + 4)).toNat := by
  have h1 := m.toNat_byteAt_setWord a v (k := 1) (by decide)
  have h2 := m.toNat_byteAt_setWord a v (k := 2) (by decide)
  have h3 := m.toNat_byteAt_setWord a v (k := 3) (by decide)
  have h4 := m.byteAt_setWord_outside v (a := a) (b := a + 4) (.inr le_rfl)
  rw [Memory.toNat_wordAt, h1, h2, h3, h4]
  omega

/-- Settles O30. -/
theorem overlappingReadSeesBytes : Obligations.OverlappingReadSeesBytes := by
  intro s t addr v h hr
  obtain ⟨-, rfl⟩ := State.memWrite_eq_some.1 h
  have hsucc : (addr + 1#32).toNat = addr.toNat + 1 := by
    rw [BitVec.toNat_add, BitVec.toNat_ofNat]; omega
  have hin : InRange (addr + 1#32) := inRange_iff.2 (hsucc ▸ hr)
  refine ⟨_, State.memRead_inRange _ hin, ?_⟩
  rw [hsucc, Memory.toNat_wordAt_succ_setWord]

end Sys2Proof.Machine
end

section
/-! PROOFS, family `20_memory.md`, part 2: lw and sw (R37, R130, R131, R132), and the store followed by the load. -/

namespace Sys2Proof.Machine

variable {s t : State} {rt rs : Reg} {imm : BitVec 16}

/-! ### Encoding -/

/-- An I-format word whose opcode is neither 0 nor a jump's nor the halt word's is dispatched on it (R53, R56). -/
theorem decode_assembleI {op : BitVec 6} (h : op ≠ 0x3F#6) (h0 : op ≠ 0x00#6) (h2 : op ≠ 0x02#6) (h3 : op ≠ 0x03#6)
    (rs rt : Reg) (imm : BitVec 16) : decode (assembleI op rs rt imm) = decodeImmediate (assembleI op rs rt imm) := by
  refine decode_immediate (ne_haltWord_of_opcode ?_) ?_ ?_ ?_ <;> rwa [opcodeOf_assembleI]

theorem decode_assembleI_lw (rt rs : Reg) (imm : BitVec 16) :
    decode (assembleI 0x23#6 rs rt imm) = .instr (.lw rt rs imm) := by
  rw [decode_assembleI (by decide) (by decide) (by decide) (by decide)]
  simp [decodeImmediate]

theorem decode_assembleI_sw (rt rs : Reg) (imm : BitVec 16) :
    decode (assembleI 0x2b#6 rs rt imm) = .instr (.sw rt rs imm) := by
  rw [decode_assembleI (by decide) (by decide) (by decide) (by decide)]
  simp [decodeImmediate]

/-! ### The effective address -/

/-- A sign-extended immediate is its signed value modulo `2^32` (R124). -/
theorem toNat_sext16 (imm : BitVec 16) : ((sext16 imm).toNat : Int) = imm.toInt % 2 ^ 32 := by
  rw [sext16, BitVec.signExtend, BitVec.toNat_ofInt, Int.toNat_of_nonneg (Int.emod_nonneg _ (by norm_num)), Nat.cast_pow,
    Nat.cast_ofNat]

/-- Settles O21: with `LS_IMM_EXT = sign` the address is a sum of words, and so a sum modulo `2^32`. -/
theorem effectiveAddressIsSignedSum : Obligations.EffectiveAddressIsSignedSum := by
  intro s rs imm
  have hea : s.effectiveAddress rs imm = s.reg rs + sext16 imm := rfl
  have hsext := toNat_sext16 imm
  rw [hea, BitVec.toNat_add]
  omega

/-! ### What lw and sw change -/

/-- A register write changes nothing but that register. -/
theorem sameButReg_setReg (s : State) (r : Reg) (v : Word) : SameButReg s (s.setReg r v) r :=
  ⟨fun _ hq => s.setReg_reg_other v hq, rfl, rfl, fun _ => rfl⟩

/-- Ending the run changes nothing but the status (R171, R172). -/
theorem sameButStatus_stop (s : State) (c : Status) : SameButStatus s (s.stop c) :=
  ⟨fun _ => rfl, rfl, fun _ => rfl⟩

/-- Settles O23. -/
theorem lwInRangeLoadsWord : Obligations.LwInRangeLoadsWord :=
  ⟨decode_assembleI_lw, fun rt _ _ s h => ⟨_, execLw_inRange h,
    by rw [State.setReg_reg_same, Memory.toNat_wordAt], sameButReg_setReg s rt _⟩⟩

/-- Settles O24. -/
theorem lwOutOfRangeFaults : Obligations.LwOutOfRangeFaults := fun _ _ _ s h =>
  ⟨_, execLw_outOfRange (not_inRange_iff.2 h), rfl, sameButStatus_stop s _⟩

/-- Settles O25. -/
theorem swInRangeStoresWord : Obligations.SwInRangeStoresWord :=
  ⟨decode_assembleI_sw, fun _ _ _ s h => ⟨_, execSw_inRange h,
    fun _ hk => s.mem.toNat_byteAt_setWord _ _ hk, sameButWord_setWord s _ _⟩⟩

/-- Settles O26. -/
theorem swOutOfRangeFaults : Obligations.SwOutOfRangeFaults := fun _ _ _ s h =>
  ⟨_, execSw_outOfRange (not_inRange_iff.2 h), rfl, sameButStatus_stop s _⟩

/-! ### A store and then a load (R46) -/

/-- An `sw` in range leaves its word where it is read back. -/
theorem memRead_of_exec_sw (hr : InRange (s.effectiveAddress rs imm)) (h : exec (.sw rt rs imm) s = .next t) :
    t.memRead (s.effectiveAddress rs imm) = some (s.reg rt) := by
  rw [exec, execSw_inRange hr] at h
  cases h
  exact s.memRead_setWord_same _ hr

/-- An `lw` whose address reads as `v` puts `v` into its register. -/
theorem exec_lw_of_memRead {v : Word} (h : s.memRead (s.effectiveAddress rs imm) = some v) :
    exec (.lw rt rs imm) s = .next (s.setReg rt v) := by
  obtain ⟨hr, rfl⟩ := State.memRead_eq_some.1 h
  exact execLw_inRange hr

/-- Settles O29. -/
theorem storeThenLoadReturnsValue : Obligations.StoreThenLoadReturnsValue := by
  refine ⟨fun s addr v hr => ⟨_, s.memWrite_inRange v hr, s.memRead_setWord_same v hr, ?_⟩, ?_⟩
  · intro addr' v' u hu hd u' hw
    exact (State.memRead_of_memWrite_disjoint hw hd).trans hu
  · intro s t rt rs rt' rs' imm imm' hr hsw hea
    have hread : t.memRead (t.effectiveAddress rs' imm') = some (s.reg rt) := hea ▸ memRead_of_exec_sw hr hsw
    exact ⟨_, exec_lw_of_memRead hread, State.setReg_reg_same ..⟩

end Sys2Proof.Machine
end

section
/-! PROOFS, family `20_memory.md`, part 3: only sw writes memory and only lw reads it (R30), and the fetch sees what sw
stored (R43, R196). -/

namespace Sys2Proof.Machine

variable {s t : State} {i : Instr}

/-- Settles O38. -/
theorem onlySwWritesMemory : Obligations.OnlySwWritesMemory := by
  intro i s t h hsw a
  obtain hm | ⟨rt, rs, imm, rfl, -⟩ := exec_mem_cases h
  · rw [hm]
  · exact absurd rfl (hsw rt rs imm)

/-- On another memory, an instruction other than lw ends in the same state but for the memory. -/
theorem exec_with_mem (m : Memory) (hlw : ∀ rt rs imm, i ≠ .lw rt rs imm) (h : exec i s = .next t) :
    ∃ m', exec i { s with mem := m } = .next { t with mem := m' } := by
  cases i
  case lw rt rs imm => exact absurd rfl (hlw rt rs imm)
  case sw rt rs imm =>
    by_cases hr : InRange (s.effectiveAddress rs imm)
    · rw [exec, execSw_inRange hr] at h
      cases h
      exact ⟨_, execSw_inRange hr⟩
    · rw [exec, execSw_outOfRange hr] at h
      cases h
      exact ⟨m, execSw_outOfRange hr⟩
  case beq | bne =>
    cases h
    simp only [branchIf_eq_setPc]
    exact ⟨m, congrArg _ (branchIf_eq_setPc _ _ _)⟩
  all_goals cases h; exact ⟨m, rfl⟩

/-- Settles O41. -/
theorem onlyLwReadsMemory : Obligations.OnlyLwReadsMemory := by
  intro i s t m hlw h
  obtain ⟨m', hu⟩ := exec_with_mem m hlw h
  exact ⟨_, hu, fun _ => rfl, rfl, rfl⟩

/-- A running state whose fetch answers a word that decodes to `i` steps as `i` does after the pc's increment (R80 to
R83). -/
theorem step_of_fetched {w : Word} (hs : s.status = .running) (hf : s.memRead s.pc = some w)
    (hd : decode w = .instr i) : step s = exec i s.advance := by
  simp only [step, State.runEnd?_eq_none.2 hs, State.fetch, hf, hd]

/-- Settles O48: after the store, the next fetch is a read of the stored word. -/
theorem storeIsSeenByNextFetch : Obligations.StoreIsSeenByNextFetch := by
  intro s rt rs imm hs hpc hd hr
  have hstep := (step_of_fetched hs (s.memRead_inRange hpc) hd).trans (execSw_inRange hr)
  have hread := s.advance.memRead_setWord_same (s.reg rt) hr
  refine ⟨_, hstep, hread, fun hea i hi => step_of_fetched hs ?_ hi⟩
  show State.memRead _ (s.pc + 4#32) = _
  rw [← hea]
  exact hread

end Sys2Proof.Machine
end

section
/-! PROOFS, family `30_encoding.md`, part 1: the fields of a word, put together again and under a mask (R51, R52, R59,
R63). -/

namespace Sys2Proof

/-! ### The fields of each format reassemble the word (R63) -/

theorem assembleR_fields (w : Word) :
    assembleR (opcodeOf w) (rsOf w) (rtOf w) (rdOf w) (shamtOf w) (functOf w) = w := by
  unfold assembleR opcodeOf rsOf rtOf rdOf shamtOf functOf
  simp (disch := rfl) only [BitVec.extractLsb'_append_extractLsb'_eq_extractLsb']
  exact BitVec.extractLsb'_eq_self

theorem assembleI_fields (w : Word) : assembleI (opcodeOf w) (rsOf w) (rtOf w) (immOf w) = w := by
  unfold assembleI opcodeOf rsOf rtOf immOf
  simp (disch := rfl) only [BitVec.extractLsb'_append_extractLsb'_eq_extractLsb']
  exact BitVec.extractLsb'_eq_self

theorem assembleJ_fields (w : Word) : assembleJ (opcodeOf w) (targetOf w) = w := by
  unfold assembleJ opcodeOf targetOf
  simp (disch := rfl) only [BitVec.extractLsb'_append_extractLsb'_eq_extractLsb']
  exact BitVec.extractLsb'_eq_self

/-- Settles O3: words with the same fields are both the word that the fields assemble. -/
theorem fieldsReassembleWord : Obligations.FieldsReassembleWord := by
  refine ⟨fun w => ⟨assembleR_fields w, assembleI_fields w, assembleJ_fields w⟩, ?_, ?_, ?_⟩
  · intro v w hop hrs hrt hrd hshamt hfunct
    rw [← assembleR_fields v, hop, hrs, hrt, hrd, hshamt, hfunct, assembleR_fields]
  · intro v w hop hrs hrt himm
    rw [← assembleI_fields v, hop, hrs, hrt, himm, assembleI_fields]
  · intro v w hop htarget
    rw [← assembleJ_fields v, hop, htarget, assembleJ_fields]

/-! ### The used masks of R59 keep some fields of a word and clear the others -/

/-- A mask acts on any word as on its R-format fields (R63). -/
theorem and_assembleR (w : Word) (op funct : BitVec 6) (rs rt rd : Reg) (shamt : BitVec 5) :
    w &&& assembleR op rs rt rd shamt funct =
      assembleR (opcodeOf w &&& op) (rsOf w &&& rs) (rtOf w &&& rt) (rdOf w &&& rd) (shamtOf w &&& shamt)
        (functOf w &&& funct) := by
  rw [← assembleR_and, assembleR_fields]

/-- The mask of the register ALU instructions clears `shamt`. -/
theorem and_aluMask (w : Word) :
    w &&& 0xFFFFF83F#32 = assembleR (opcodeOf w) (rsOf w) (rtOf w) (rdOf w) 0#5 (functOf w) := by
  have h : w &&& 0xFFFFF83F#32 = _ :=
    and_assembleR w (.allOnes 6) (.allOnes 6) (.allOnes 5) (.allOnes 5) (.allOnes 5) 0#5
  simpa only [BitVec.and_allOnes, BitVec.and_zero] using h

/-- The mask of the shifts clears `rs`. -/
theorem and_shiftMask (w : Word) :
    w &&& 0xFC1FFFFF#32 = assembleR (opcodeOf w) 0#5 (rtOf w) (rdOf w) (shamtOf w) (functOf w) := by
  have h : w &&& 0xFC1FFFFF#32 = _ :=
    and_assembleR w (.allOnes 6) (.allOnes 6) 0#5 (.allOnes 5) (.allOnes 5) (.allOnes 5)
  simpa only [BitVec.and_allOnes, BitVec.and_zero] using h

/-- The mask of `jr` clears `rt`, `rd` and `shamt`. -/
theorem and_jrMask (w : Word) : w &&& 0xFFE0003F#32 = assembleR (opcodeOf w) (rsOf w) 0#5 0#5 0#5 (functOf w) := by
  have h : w &&& 0xFFE0003F#32 = _ := and_assembleR w (.allOnes 6) (.allOnes 6) (.allOnes 5) 0#5 0#5 0#5
  simpa only [BitVec.and_allOnes, BitVec.and_zero] using h

/-- The mask of the instructions with no ignored field clears nothing. -/
theorem and_fullMask (w : Word) : w &&& 0xFFFFFFFF#32 = w := BitVec.and_allOnes

end Sys2Proof
end

section
/-! PROOFS, family `30_encoding.md`, part 2: the decoder answers `i` exactly on the words that agree with `encode i` on
the fields `i` uses (R52, R55 to R57, R59, R65). -/

namespace Sys2Proof

variable {w : Word} {i : Instr}

/-! ### From an answer of the decoder to the word: one lemma per dispatch -/

theorem encode_of_decodeRegister (hop : opcodeOf w = 0x00#6) (h : decodeRegister w = .instr i) :
    encode i = w &&& i.usedMask := by
  unfold decodeRegister at h
  repeat' split at h
  all_goals cases h
  all_goals
    next hfunct => simp only [encode, Instr.usedMask, and_aluMask, and_shiftMask, and_jrMask, hop, hfunct]

theorem encode_of_decodeJump (hop : opcodeOf w = 0x02#6 ∨ opcodeOf w = 0x03#6) (h : decodeJump w = .instr i) :
    encode i = w &&& i.usedMask := by
  have hw := assembleJ_fields w
  unfold decodeJump at h
  split at h
  all_goals cases h
  case isTrue h2 =>
    rw [h2] at hw
    exact hw.trans (and_fullMask w).symm
  case isFalse h2 =>
    rw [hop.resolve_left h2] at hw
    exact hw.trans (and_fullMask w).symm

theorem encode_of_decodeImmediate (h : decodeImmediate w = .instr i) : encode i = w &&& i.usedMask := by
  have hw := assembleI_fields w
  unfold decodeImmediate at h
  repeat' split at h
  all_goals cases h
  all_goals
    next hop =>
      rw [hop] at hw
      exact hw.trans (and_fullMask w).symm

/-- Settles O4, by the dispatch that the instruction comes from. -/
theorem encodeOfDecode : Obligations.EncodeOfDecode := by
  intro w i h
  obtain ⟨rfl, rfl⟩ | ⟨hop, h⟩ | ⟨hop, h⟩ | ⟨-, -, -, -, h⟩ := decode_cases h
  · exact (and_fullMask haltWord).symm
  · exact encode_of_decodeRegister hop h
  · exact encode_of_decodeJump hop h
  · exact encode_of_decodeImmediate h

/-! ### From the word to the answer -/

/-- An R-format word determines its fields (R63). -/
theorem assembleR_inj {op op' funct funct' : BitVec 6} {rs rt rd rs' rt' rd' : Reg} {shamt shamt' : BitVec 5} :
    assembleR op rs rt rd shamt funct = assembleR op' rs' rt' rd' shamt' funct' ↔
      op = op' ∧ rs = rs' ∧ rt = rt' ∧ rd = rd' ∧ shamt = shamt' ∧ funct = funct' := by
  refine ⟨fun h => ⟨?_, ?_, ?_, ?_, ?_, ?_⟩, by rintro ⟨rfl, rfl, rfl, rfl, rfl, rfl⟩; rfl⟩
  · simpa using congrArg opcodeOf h
  · simpa using congrArg rsOf h
  · simpa using congrArg rtOf h
  · simpa using congrArg rdOf h
  · simpa using congrArg shamtOf h
  · simpa using congrArg functOf h

/-- A word that is the encoding of an instruction on the fields it uses decodes to that instruction (R59, R65). -/
theorem decode_of_encode_eq_and (h : encode i = w &&& i.usedMask) : decode w = .instr i := by
  cases i
  case add | sub | and | or | nor | slt =>
    obtain ⟨hop, rfl, rfl, rfl, -, hfunct⟩ := assembleR_inj.1 (h.trans (and_aluMask w))
    rw [decode_register hop.symm]
    simp [decodeRegister, ← hfunct]
  case sll | srl | sra =>
    obtain ⟨hop, -, rfl, rfl, rfl, hfunct⟩ := assembleR_inj.1 (h.trans (and_shiftMask w))
    rw [decode_register hop.symm]
    simp [decodeRegister, ← hfunct]
  case jr =>
    obtain ⟨hop, rfl, -, -, -, hfunct⟩ := assembleR_inj.1 (h.trans (and_jrMask w))
    rw [decode_register hop.symm]
    simp [decodeRegister, ← hfunct]
  case addi | andi | ori | slti | lw | sw | beq | bne =>
    obtain rfl := h.trans (and_fullMask w)
    rw [encode, Machine.decode_assembleI (by decide) (by decide) (by decide) (by decide)]
    simp [decodeImmediate]
  case j | jal =>
    obtain rfl := h.trans (and_fullMask w)
    rw [encode, decode_jump (by simp)]
    simp [decodeJump]
  case halt =>
    obtain rfl := h.trans (and_fullMask w)
    rfl

/-- The decoder answers `i` exactly on the words that are `encode i` on the fields `i` uses. -/
theorem decode_eq_instr_iff : decode w = .instr i ↔ encode i = w &&& i.usedMask :=
  ⟨encodeOfDecode w i, decode_of_encode_eq_and⟩

/-- Settles O7: both words agree with the encoding of `i` on the fields it uses. -/
theorem ignoredFieldsDoNotMatter : Obligations.IgnoredFieldsDoNotMatter := by
  intro v w i hv hvw
  exact decode_eq_instr_iff.2 ((decode_eq_instr_iff.1 hv).trans hvw)

/-- The encoder puts 0 into the ignored fields (R113 for the shifts; the rest is the model's choice). -/
theorem encode_and_usedMask (i : Instr) : encode i &&& i.usedMask = encode i := by
  cases i
  case add | sub | and | or | nor | slt => exact (and_aluMask _).trans (by simp [encode])
  case sll | srl | sra => exact (and_shiftMask _).trans (by simp [encode])
  case jr => exact (and_jrMask _).trans (by simp [encode])
  all_goals exact and_fullMask _

/-- Settles O2: the encoding of `i` is itself on the fields `i` uses. -/
theorem decodeOfEncode : Obligations.DecodeOfEncode := fun i =>
  decode_eq_instr_iff.2 (encode_and_usedMask i).symm

/-! ### The rows of the opcode table (R55 to R57, R59) -/

/-- The bits that select an instruction's row are among the bits it uses. -/
theorem usedMask_and_tableMask (i : Instr) : i.usedMask &&& i.tableMask = i.tableMask := by
  cases i <;> simp only [Instr.usedMask, Instr.tableMask] <;> decide

/-- Every encoding lies in its row of the opcode table. -/
theorem encode_and_tableMask : ∀ i : Instr, encode i &&& i.tableMask = i.tableMatch
  | .add .. => Laws.TableRow.add ..
  | .sub .. => Laws.TableRow.sub ..
  | .and .. => Laws.TableRow.and ..
  | .or .. => Laws.TableRow.or ..
  | .nor .. => Laws.TableRow.nor ..
  | .sll .. => Laws.TableRow.sll ..
  | .srl .. => Laws.TableRow.srl ..
  | .sra .. => Laws.TableRow.sra ..
  | .slt .. => Laws.TableRow.slt ..
  | .jr .. => Laws.TableRow.jr ..
  | .addi .. => Laws.TableRow.addi ..
  | .andi .. => Laws.TableRow.andi ..
  | .ori .. => Laws.TableRow.ori ..
  | .slti .. => Laws.TableRow.slti ..
  | .lw .. => Laws.TableRow.lw ..
  | .sw .. => Laws.TableRow.sw ..
  | .beq .. => Laws.TableRow.beq ..
  | .bne .. => Laws.TableRow.bne ..
  | .j .. => Laws.TableRow.j ..
  | .jal .. => Laws.TableRow.jal ..
  | .halt => Laws.TableRow.halt

/-- Settles O5: on the bits that select the row, the word is the encoding of the instruction. -/
theorem decodedWordMatchesTable : Obligations.DecodedWordMatchesTable := by
  intro w i h
  calc
    w &&& i.tableMask = w &&& i.usedMask &&& i.tableMask := by rw [BitVec.and_assoc, usedMask_and_tableMask]
    _ = encode i &&& i.tableMask := by rw [decode_eq_instr_iff.1 h]
    _ = i.tableMatch := encode_and_tableMask i

end Sys2Proof
end

section
/-! PROOFS, family `30_encoding.md`, part 3: the rejected words (R60, R161) and the two readings of the immediate of lw
and sw (R58, R130). -/

namespace Sys2Proof

variable {v w : Word} {c : Prop} [Decidable c] {i : Instr} {d : Decoded}

/-! ### Rejection by each dispatch -/

/-- A dispatch rejects a word exactly when its first row does not select it and the remaining rows reject it. -/
theorem ite_instr_eq_unrecognized_iff :
    (if c then Decoded.instr i else d) = .unrecognized v ↔ ¬ c ∧ d = .unrecognized v := by
  by_cases hc : c <;> simp [hc]

theorem decodeRegister_unrecognized_iff : decodeRegister w = .unrecognized w ↔
    functOf w ∉ [0x00#6, 0x02#6, 0x03#6, 0x08#6, 0x20#6, 0x22#6, 0x24#6, 0x25#6, 0x27#6, 0x2a#6] := by
  simp only [decodeRegister, ite_instr_eq_unrecognized_iff, List.mem_cons, List.not_mem_nil, or_false]
  tauto

theorem decodeJump_ne_unrecognized : decodeJump w ≠ .unrecognized v := by
  simp [decodeJump, ite_instr_eq_unrecognized_iff]

theorem decodeImmediate_unrecognized_iff : decodeImmediate w = .unrecognized w ↔
    opcodeOf w ∉ [0x04#6, 0x05#6, 0x08#6, 0x0a#6, 0x0c#6, 0x0d#6, 0x23#6, 0x2b#6] := by
  simp only [decodeImmediate, ite_instr_eq_unrecognized_iff, List.mem_cons, List.not_mem_nil, or_false]
  tauto

/-- Settles O6, format by format. -/
theorem unrecognizedWordsExactly : Obligations.UnrecognizedWordsExactly := by
  refine fun w => ⟨?_, fun _ => decode_unrecognized_word⟩
  by_cases hw : w = haltWord
  · subst hw
    exact iff_of_false (fun h => Decoded.noConfusion h) fun h => h.1 rfl
  have hne : w ≠ 0xFFFFFFFF#32 := hw
  by_cases h0 : opcodeOf w = 0x00#6
  · simp [decode_register h0, decodeRegister_unrecognized_iff, h0, hne]
  by_cases hj : opcodeOf w = 0x02#6 ∨ opcodeOf w = 0x03#6
  · refine iff_of_false (decode_jump hj ▸ decodeJump_ne_unrecognized) ?_
    rintro ⟨-, ⟨h, -⟩ | h⟩
    · exact h0 h
    · obtain hj | hj := hj <;> exact h (by simp [hj])
  · obtain ⟨h2, h3⟩ := not_or.1 hj
    rw [decode_immediate hw h0 h2 h3, decodeImmediate_unrecognized_iff]
    simp [hne, h0, h2, h3]

end Sys2Proof

namespace Sys2Proof.Machine

/-- Below `0x8000` bit 15 is clear, and sign extension fills with zeros as zero extension does (R124). -/
theorem sext16_eq_zext16 {imm : BitVec 16} (h : imm.toNat < 0x8000) : sext16 imm = zext16 imm :=
  BitVec.signExtend_eq_setWidth_of_msb_false (BitVec.msb_eq_false_iff_two_mul_lt.2 (by omega))

/-- Settles O22: the two addresses are the same base plus equal extensions. -/
theorem extensionReadingsAgreeBelow0x8000 : Obligations.ExtensionReadingsAgreeBelow0x8000 :=
  fun base _ h => congrArg (base + ·) (sext16_eq_zext16 h)

end Sys2Proof.Machine
end

section
/-! PROOFS, family `40_step_cycle.md`, part 1: how the Executor can end a run, and what one step answers in each of its
paths (R80 to R84, R86, R88). -/

namespace Sys2Proof.Machine

variable {s t : State} {i : Instr} {w : Word}

/-! ### The Executor completes (R83, R170) -/

/-- Every arm of the Executor answers a next state; lw and sw do so both in range and out of it. -/
theorem exec_completes (i : Instr) (s : State) : ∃ t, exec i s = .next t := by
  cases i
  case lw rt rs imm =>
    by_cases hr : InRange (s.effectiveAddress rs imm)
    · exact ⟨_, execLw_inRange hr⟩
    · exact ⟨_, execLw_outOfRange hr⟩
  case sw rt rs imm =>
    by_cases hr : InRange (s.effectiveAddress rs imm)
    · exact ⟨_, execSw_inRange hr⟩
    · exact ⟨_, execSw_outOfRange hr⟩
  all_goals exact ⟨_, rfl⟩

/-- What the Executor can do with the status: leave it, or end the run by halt or by an lw or sw outside memory, and
then it changes nothing else (R171, R172). -/
theorem exec_status_cases (h : exec i s = .next t) :
    t.status = s.status ∨ (i = .halt ∧ t = s.stop .halted) ∨
      ∃ rt rs imm, ¬ InRange (s.effectiveAddress rs imm) ∧
        ((i = .lw rt rs imm ∧ t = s.raiseOutOfBounds .load (s.effectiveAddress rs imm)) ∨
          (i = .sw rt rs imm ∧ t = s.raiseOutOfBounds .store (s.effectiveAddress rs imm))) := by
  obtain ⟨r, v, -, rfl⟩ | ⟨v, rfl⟩ | ⟨v, w, -, rfl⟩ | ⟨rt, rs, imm, -, -, rfl⟩ | ⟨rt, rs, imm, hi, hr, ht⟩ |
    ⟨rt, rs, imm, hi, hr, ht⟩ | hhalt := exec_cases h
  case inr.inr.inr.inr.inl => exact .inr (.inr ⟨rt, rs, imm, hr, .inr ⟨hi, ht⟩⟩)
  case inr.inr.inr.inr.inr.inl => exact .inr (.inr ⟨rt, rs, imm, hr, .inl ⟨hi, ht⟩⟩)
  case inr.inr.inr.inr.inr.inr => exact .inr (.inl hhalt)
  all_goals exact .inl rfl

/-- Settles O37. -/
theorem everyInstructionCompletes : Obligations.EveryInstructionCompletes := by
  intro i s
  obtain ⟨t, h⟩ := exec_completes i s
  refine ⟨t, h, fun hne => ?_⟩
  obtain hst | ⟨hi, -⟩ | ⟨rt, rs, imm, hr, hi⟩ := exec_status_cases h
  · exact absurd hst hne
  · exact .inl hi
  · exact .inr ⟨rt, rs, imm, hi.imp And.left And.left, hr⟩

/-! ### The step, path by path -/

/-- No step is taken from a state whose run has ended (R84, R88). -/
theorem step_of_ended {r : Fault} (h : s.runEnd? = some r) : step s = .fault r := by
  simp only [step, h]

/-- The fetch outside memory ends the run in place (R81). -/
theorem step_of_fetch_outOfRange (hs : s.status = .running) (hr : ¬ InRange s.pc) :
    step s = .next (s.raiseOutOfBounds .fetch s.pc) := by
  simp only [step, State.runEnd?_eq_none.2 hs, State.fetch, State.memRead_eq_none.2 hr]

/-- A fetched word that the decoder rejects ends the run with only the pc advanced (R86, R161). -/
theorem step_of_unrecognized {w' : Word} (hs : s.status = .running) (hf : s.memRead s.pc = some w)
    (hd : decode w = .unrecognized w') : step s = .next (s.advance.stop (.illegalInstruction w')) := by
  simp only [step, State.runEnd?_eq_none.2 hs, State.fetch, hf, hd, execUnrecognized]

/-- A running state has a next one, whatever stands at its pc (R84). -/
theorem step_of_running (hs : s.status = .running) : ∃ t, step s = .next t := by
  by_cases hr : InRange s.pc
  · have hf := s.memRead_inRange hr
    cases hd : decode (s.mem.wordAt s.pc.toNat) with
    | instr i => rw [step_of_fetched hs hf hd]; exact exec_completes i s.advance
    | unrecognized w => exact ⟨_, step_of_unrecognized hs hf hd⟩
  · exact ⟨_, step_of_fetch_outOfRange hs hr⟩

theorem step_next_iff_running : (∃ t, step s = .next t) ↔ s.status = .running :=
  ⟨fun ⟨_, h⟩ => (step_cases h).1, step_of_running⟩

/-- Settles O42: the decoder reads the four bytes of the fetched word. -/
theorem stepRunsDecodedInstruction : Obligations.StepRunsDecodedInstruction :=
  fun s _ hs hr hd => step_of_fetched hs (s.memRead_inRange hr) hd

/-- Settles O43. -/
theorem stepFetchOutOfRangeFaults : Obligations.StepFetchOutOfRangeFaults := fun s hs hr =>
  ⟨_, step_of_fetch_outOfRange hs (not_inRange_iff.2 hr), rfl, sameButStatus_stop s _⟩

/-- Settles O44. -/
theorem stepUnrecognizedWordEndsRun : Obligations.StepUnrecognizedWordEndsRun := fun _ _ hs hf hd =>
  ⟨_, step_of_unrecognized hs hf hd, rfl, rfl, fun _ => rfl, fun _ => rfl⟩

/-- Settles O45: a state either has ended, and repeats its cause, or goes on. -/
theorem stepGoesOnExactlyWhileRunning : Obligations.StepGoesOnExactlyWhileRunning := by
  intro s
  refine ⟨step_next_iff_running, fun r hr => ?_, fun h => step_of_ended ?_, fun w h => step_of_ended ?_,
    fun k a h => step_of_ended ?_⟩
  · cases he : s.runEnd? with
    | none =>
      obtain ⟨t, ht⟩ := step_of_running (State.runEnd?_eq_none.1 he)
      rw [hr] at ht
      cases ht
    | some cause =>
      rw [step_of_ended he] at hr
      cases hr
  all_goals rw [State.runEnd?, h]

end Sys2Proof.Machine
end

section
/-! PROOFS, family `40_step_cycle.md`, part 2: a state explains the end of its run (R86, R171 to R173). -/

namespace Sys2Proof.Machine

variable {s t : State} {i : Instr} {w : Word}

/-- A run that goes on has no end to explain. -/
theorem State.endExplained_of_running (h : s.status = .running) : s.EndExplained := by
  rw [State.EndExplained, h]
  trivial

/-- The word fetched by a step stands at `pcf - 4`, also where the pc wraps (R82). -/
theorem State.memRead_advance_pc_sub_four (h : InRange s.pc) :
    s.advance.memRead (s.advance.pc - 4#32) = some (s.mem.wordAt s.pc.toNat) := by
  rw [State.advance_pc, BitVec.add_sub_cancel]
  exact s.advance.memRead_inRange h

/-- Only the sentinel decodes to halt (R54, R160). -/
theorem eq_haltWord_of_decode (h : decode w = .instr .halt) : w = haltWord :=
  ((decode_eq_instr_iff.1 h).trans (and_fullMask w)).symm

/-- Where the Executor ends a run, the word it was given, which stands at `pcf - 4`, says why: it is the halt word, or
the lw or sw whose address, computed from registers that are still the same, leaves memory. -/
theorem exec_endExplained (hs : s.status = .running) (hf : s.memRead (s.pc - 4#32) = some w)
    (hd : decode w = .instr i) (h : exec i s = .next t) : t.EndExplained := by
  obtain hst | ⟨rfl, rfl⟩ | ⟨rt, rs, imm, hr, ⟨rfl, rfl⟩ | ⟨rfl, rfl⟩⟩ := exec_status_cases h
  · exact State.endExplained_of_running (hst.trans hs)
  · exact hf.trans (congrArg some (eq_haltWord_of_decode hd))
  · exact ⟨hr, w, rt, rs, imm, hf, hd, rfl⟩
  · exact ⟨hr, w, rt, rs, imm, hf, hd, rfl⟩

/-- Settles O51. -/
theorem stepKeepsEndExplained : Obligations.StepKeepsEndExplained := by
  intro s t _ h
  obtain ⟨hs, ⟨hr, rfl⟩ | ⟨hr, i, hd, hi⟩ | ⟨hr, w, hd, rfl⟩⟩ := step_cases h
  · exact ⟨rfl, hr⟩
  · exact exec_endExplained (s := s.advance) hs (State.memRead_advance_pc_sub_four hr) hd hi
  · obtain rfl := decode_unrecognized_word hd
    exact ⟨State.memRead_advance_pc_sub_four hr, hd⟩

end Sys2Proof.Machine
end

section
/-! PROOFS, family `40_step_cycle.md`, part 3: runs (R84, R87, R88). -/

namespace Sys2Proof.Machine

variable {s t u v : State} {fuel n : Nat}

/-! ### runToEnd, equation by equation -/

theorem State.continues_iff : s.continues = true ↔ s.status = .running := decide_eq_true_iff

/-- A run from an ended state is that state, whatever the fuel. -/
theorem runToEnd_of_ended (hs : s.status ≠ .running) : runToEnd fuel s = some (s, 0) := by
  unfold runToEnd
  exact if_neg (mt State.continues_iff.1 hs)

/-- A run that goes on needs fuel. -/
theorem runToEnd_zero_of_running (hs : s.status = .running) : runToEnd 0 s = none := by
  rw [runToEnd, if_pos (State.continues_iff.2 hs)]

/-- A step that continues is counted (R87). -/
theorem runToEnd_succ_of_continuing (hs : s.status = .running) (h : step s = .next v) (hv : v.status = .running) :
    runToEnd (fuel + 1) s = (runToEnd fuel v).map fun r => (r.1, r.2 + 1) := by
  rw [runToEnd, if_pos (State.continues_iff.2 hs), h]
  simp only [State.continues_iff.2 hv, if_true]

/-- A step that ends the run is not counted (R87). -/
theorem runToEnd_succ_of_ending (hs : s.status = .running) (h : step s = .next v) (hv : v.status ≠ .running) :
    runToEnd (fuel + 1) s = some (v, 0) := by
  rw [runToEnd, if_pos (State.continues_iff.2 hs), h]
  simp only [runToEnd_of_ended hv, Option.map_some, if_neg (mt State.continues_iff.1 hv)]

/-! ### The runs that end -/

/-- A chain of continuing steps goes through the one state that its first step answers. -/
theorem stepsContinuing_succ_of_step (h : step s = .next v) :
    StepsContinuing (n + 1) s u ↔ v.status = .running ∧ StepsContinuing n v u := by
  simp [stepsContinuing_succ, h]

/-- A run from a running state ends in `t` with count `n` exactly when the fuel exceeds `n` and the step after `n`
continuing ones answers `t` and ends the run (R84, R87). -/
theorem runToEnd_eq_some_iff (hs : s.status = .running) : runToEnd fuel s = some (t, n) ↔
    n < fuel ∧ t.status ≠ .running ∧ ∃ u, StepsContinuing n s u ∧ step u = .next t := by
  induction fuel generalizing s n with
  | zero => simp [runToEnd_zero_of_running hs]
  | succ fuel ih =>
    obtain ⟨v, hv⟩ := step_of_running hs
    by_cases hvr : v.status = .running
    · rw [runToEnd_succ_of_continuing hs hv hvr]
      cases n with
      | zero =>
        have hne : t.status ≠ .running → v ≠ t := fun ht he => ht (he ▸ hvr)
        simpa [hv] using hne
      | succ n =>
        simp [stepsContinuing_succ_of_step hv, hvr, ← ih hvr]
    · rw [runToEnd_succ_of_ending hs hv hvr]
      cases n with
      | zero =>
        have hend : v = t → t.status ≠ .running := fun he => he ▸ hvr
        simpa [hv] using hend
      | succ n =>
        simp [stepsContinuing_succ_of_step hv, hvr]

/-- A run ends only in a state from which it does not go on (R84). -/
theorem status_of_runToEnd (h : runToEnd fuel s = some (t, n)) : t.status ≠ .running := by
  by_cases hs : s.status = .running
  · exact ((runToEnd_eq_some_iff hs).1 h).2.1
  · rw [runToEnd_of_ended hs] at h
    cases h
    exact hs

/-- An end that some fuel reaches is reached with more. -/
theorem runToEnd_mono {more : Nat} (h : runToEnd fuel s = some (t, n)) (hle : fuel ≤ more) :
    runToEnd more s = some (t, n) := by
  by_cases hs : s.status = .running
  · obtain ⟨hn, hend⟩ := (runToEnd_eq_some_iff hs).1 h
    exact (runToEnd_eq_some_iff hs).2 ⟨hn.trans_le hle, hend⟩
  · rw [runToEnd_of_ended hs] at h ⊢
    exact h

/-- Settles O53. -/
theorem runEndIsFinal : Obligations.RunEndIsFinal := by
  refine ⟨fun fuel s t n h => ⟨status_of_runToEnd h, fun u hu => ?_, fun hs => ?_, fun hs => ?_,
    fun _ => runToEnd_mono h⟩, fun n s u t hs hc hu ht => ?_⟩
  · exact status_of_runToEnd h (step_next_iff_running.1 ⟨u, hu⟩)
  · rw [runToEnd_of_ended hs] at h
    cases h
    exact ⟨rfl, rfl⟩
  · obtain ⟨hn, -, hend⟩ := (runToEnd_eq_some_iff hs).1 h
    exact ⟨hn, hend⟩
  · exact (runToEnd_eq_some_iff hs).2 ⟨n.lt_succ_self, ht, u, hc, hu⟩

end Sys2Proof.Machine
end

section
/-! PROOFS, family `41_alu_register.md`: add, sub, and, or, nor and slt (R100 to R106), and the words written out in the
spec. -/

namespace Sys2Proof

/-- Settles O1, by running the decoder on the fourteen words. -/
theorem specWordsDecode : Obligations.SpecWordsDecode := by
  unfold Obligations.SpecWordsDecode
  decide

/-- A word that agrees with the encoding of a register ALU instruction in every field but `shamt` decodes to that
instruction (R59, D10). -/
theorem decode_assembleR_of_aluMask {i : Instr} {rd rs rt : Reg} {funct : BitVec 6} (hmask : i.usedMask = 0xFFFFF83F#32)
    (henc : encode i = assembleR 0x00#6 rs rt rd 0#5 funct) (shamt : BitVec 5) :
    decode (assembleR 0x00#6 rs rt rd shamt funct) = .instr i := by
  rw [decode_eq_instr_iff, hmask, and_aluMask, henc]
  simp only [opcodeOf_assembleR, rsOf_assembleR, rtOf_assembleR, rdOf_assembleR, functOf_assembleR]

end Sys2Proof

namespace Sys2Proof.Machine

/-! ### The results of the ALU, operation by operation (R100) -/

section AluResult

variable (a b : Word) (n : BitVec 5)

theorem toNat_alu_add : (alu .add a b n).toNat = (a.toNat + b.toNat) % 2 ^ 32 := BitVec.toNat_add a b

theorem toNat_alu_sub : ((alu .sub a b n).toNat : Int) = ((a.toNat : Int) - (b.toNat : Int)) % 2 ^ 32 := by
  have hsub : (alu .sub a b n).toNat = (2 ^ 32 - b.toNat + a.toNat) % 2 ^ 32 := BitVec.toNat_sub a b
  omega

theorem getLsbD_alu_and (k : Nat) : (alu .and a b n).getLsbD k = (a.getLsbD k && b.getLsbD k) := BitVec.getLsbD_and

theorem getLsbD_alu_or (k : Nat) : (alu .or a b n).getLsbD k = (a.getLsbD k || b.getLsbD k) := BitVec.getLsbD_or

theorem getLsbD_alu_nor {k : Nat} (hk : k < 32) : (alu .nor a b n).getLsbD k = !(a.getLsbD k || b.getLsbD k) := by
  simp [alu, hk]

theorem alu_slt : alu .slt a b n = if a.toInt < b.toInt then 1#32 else 0#32 := by
  simp [alu, wordOfBool, signedLess]

end AluResult

/-! ### What a register ALU instruction writes and leaves -/

section AluRegister

variable (op : AluOp) (rd rs rt : Reg) (s : State)

/-- The destination holds the result for the old values of the sources, also where it is one of them (D16). -/
theorem aluRegister_reg_dest : (aluRegister op rd rs rt s).reg rd = alu op (s.reg rs) (s.reg rt) 0#5 :=
  State.setReg_reg_same ..

theorem sameButReg_aluRegister : SameButReg s (aluRegister op rd rs rt s) rd := sameButReg_setReg s rd _

end AluRegister

/-- Settles O8. -/
theorem addWritesSum : Obligations.AddWritesSum :=
  ⟨fun _ _ _ => decode_assembleR_of_aluMask rfl rfl, fun rd rs rt s =>
    ⟨aluRegister .add rd rs rt s, rfl, by rw [aluRegister_reg_dest, toNat_alu_add], sameButReg_aluRegister ..⟩⟩

/-- Settles O9. -/
theorem subWritesDifference : Obligations.SubWritesDifference :=
  ⟨fun _ _ _ => decode_assembleR_of_aluMask rfl rfl, fun rd rs rt s =>
    ⟨aluRegister .sub rd rs rt s, rfl, by rw [aluRegister_reg_dest, toNat_alu_sub], sameButReg_aluRegister ..⟩⟩

/-- Settles O10. -/
theorem andWritesConjunction : Obligations.AndWritesConjunction :=
  ⟨fun _ _ _ => decode_assembleR_of_aluMask rfl rfl, fun rd rs rt s =>
    ⟨aluRegister .and rd rs rt s, rfl, fun k _ => by rw [aluRegister_reg_dest, getLsbD_alu_and],
      sameButReg_aluRegister ..⟩⟩

/-- Settles O11. -/
theorem orWritesDisjunction : Obligations.OrWritesDisjunction :=
  ⟨fun _ _ _ => decode_assembleR_of_aluMask rfl rfl, fun rd rs rt s =>
    ⟨aluRegister .or rd rs rt s, rfl, fun k _ => by rw [aluRegister_reg_dest, getLsbD_alu_or],
      sameButReg_aluRegister ..⟩⟩

/-- Settles O12. -/
theorem norWritesInvertedDisjunction : Obligations.NorWritesInvertedDisjunction :=
  ⟨fun _ _ _ => decode_assembleR_of_aluMask rfl rfl, fun rd rs rt s =>
    ⟨aluRegister .nor rd rs rt s, rfl, fun k hk => by rw [aluRegister_reg_dest, getLsbD_alu_nor _ _ _ hk],
      sameButReg_aluRegister ..⟩⟩

/-- Settles O13. -/
theorem sltWritesSignedLess : Obligations.SltWritesSignedLess :=
  ⟨fun _ _ _ => decode_assembleR_of_aluMask rfl rfl, fun rd rs rt s =>
    ⟨aluRegister .slt rd rs rt s, rfl, by rw [aluRegister_reg_dest, alu_slt], sameButReg_aluRegister ..⟩⟩

end Sys2Proof.Machine
end

section
/-! PROOFS, family `42_shift.md`: sll, srl and sra (R110 to R113). -/

namespace Sys2Proof

/-- A word that agrees with the encoding of a shift in every field but `rs` decodes to that shift (R113; R59, D10). -/
theorem decode_assembleR_of_shiftMask {i : Instr} {rd rt : Reg} {shamt : BitVec 5} {funct : BitVec 6}
    (hmask : i.usedMask = 0xFC1FFFFF#32) (henc : encode i = assembleR 0x00#6 0#5 rt rd shamt funct) (rs : Reg) :
    decode (assembleR 0x00#6 rs rt rd shamt funct) = .instr i := by
  rw [decode_eq_instr_iff, hmask, and_shiftMask, henc]
  simp only [opcodeOf_assembleR, rtOf_assembleR, rdOf_assembleR, shamtOf_assembleR, functOf_assembleR]

end Sys2Proof

namespace Sys2Proof.Machine

/-! ### The loop of sra (R112) -/

/-- Putting the sign bit back into bit 31 after a logical shift by 1 is an arithmetic shift by 1. -/
theorem signBit_or_ushiftRight_one (v : Word) : ((v >>> 31) <<< 31) ||| (v >>> 1) = v.sshiftRight 1 := by
  ext k hk
  obtain rfl | hlt : k = 31 ∨ k < 31 := by omega
  · simp [BitVec.getElem_sshiftRight, BitVec.msb_eq_getLsbD_last]
  · have hk1 : 1 + k < 32 := by omega
    simp [BitVec.getElem_sshiftRight, hlt, hk1]

/-- An arithmetic shift keeps the sign bit, which the loop took from the original operand only. -/
theorem sshiftRight_one_ushiftRight_31 (v : Word) : v.sshiftRight 1 >>> 31 = v >>> 31 := by
  ext k hk
  obtain rfl | hpos : k = 0 ∨ 0 < k := by omega
  · simp [BitVec.getElem_sshiftRight, BitVec.msb_eq_getLsbD_last]
  · have hge : 32 ≤ 31 + k := by omega
    simp [hge]

/-- Each round of the loop is an arithmetic shift by 1, so `n` rounds are one by `n`. -/
theorem sraLoop_signBit (v : Word) (n : Nat) : sraLoop (v >>> 31) n v = v.sshiftRight n := by
  induction n generalizing v with
  | zero => rw [sraLoop, BitVec.sshiftRight_zero]
  | succ n ih =>
    rw [sraLoop, signBit_or_ushiftRight_one, ← sshiftRight_one_ushiftRight_31, ih, ← BitVec.sshiftRight_add,
      Nat.add_comm]

/-! ### The results of the shifts (R110 to R112) -/

section ShiftResult

variable (a b : Word) (n : BitVec 5)

theorem toNat_alu_sll : (alu .sll a b n).toNat = b.toNat * 2 ^ n.toNat % 2 ^ 32 := by
  rw [alu, BitVec.toNat_shiftLeft, Nat.shiftLeft_eq]

theorem toNat_alu_srl : (alu .srl a b n).toNat = b.toNat / 2 ^ n.toNat := by
  rw [alu, BitVec.toNat_ushiftRight, Nat.shiftRight_eq_div_pow]

theorem toInt_alu_sra : (alu .sra a b n).toInt = b.toInt / 2 ^ n.toNat := by
  rw [alu, shiftRightArithmetic, sraLoop_signBit, BitVec.toInt_sshiftRight, Int.shiftRight_eq_div_pow]
  norm_cast

end ShiftResult

/-! ### What a shift writes and leaves -/

section AluShift

variable (op : AluOp) (rd rt : Reg) (n : BitVec 5) (s : State)

/-- The destination holds the result for the old value of the source, also where it is the source (D16). -/
theorem aluShift_reg_dest : (aluShift op rd rt n s).reg rd = alu op 0#32 (s.reg rt) n := State.setReg_reg_same ..

theorem sameButReg_aluShift : SameButReg s (aluShift op rd rt n s) rd := sameButReg_setReg s rd _

end AluShift

/-- Settles O16: the loop is the arithmetic shift, which divides and rounds down. -/
theorem sraWritesSignedFloorQuotient : Obligations.SraWritesSignedFloorQuotient :=
  ⟨fun _ rs _ _ => decode_assembleR_of_shiftMask rfl rfl rs, fun rd rt n s =>
    ⟨aluShift .sra rd rt n s, rfl, by rw [aluShift_reg_dest, toInt_alu_sra], sameButReg_aluShift ..⟩⟩

/-- Settles O14. -/
theorem sllWritesShiftedLeft : Obligations.SllWritesShiftedLeft :=
  ⟨fun _ rs _ _ => decode_assembleR_of_shiftMask rfl rfl rs, fun rd rt n s =>
    ⟨aluShift .sll rd rt n s, rfl, by rw [aluShift_reg_dest, toNat_alu_sll], sameButReg_aluShift ..⟩⟩

/-- Settles O15. -/
theorem srlWritesUnsignedQuotient : Obligations.SrlWritesUnsignedQuotient :=
  ⟨fun _ rs _ _ => decode_assembleR_of_shiftMask rfl rfl rs, fun rd rt n s =>
    ⟨aluShift .srl rd rt n s, rfl, by rw [aluShift_reg_dest, toNat_alu_srl], sameButReg_aluShift ..⟩⟩

end Sys2Proof.Machine
end

section
/-! PROOFS, family `43_alu_immediate.md`: addi, andi, ori and slti (R120 to R124). -/

namespace Sys2Proof.Machine

/-! ### The value of an extended immediate (R124) -/

theorem toNat_zext16 (imm : BitVec 16) : (zext16 imm).toNat = imm.toNat :=
  BitVec.toNat_setWidth_of_le (by decide)

theorem toInt_sext16 (imm : BitVec 16) : (sext16 imm).toInt = imm.toInt :=
  BitVec.toInt_signExtend_of_le (by decide)

/-! ### The results of the ALU for an extended immediate (R120 to R123) -/

section AluExtended

variable (a : Word) (imm : BitVec 16) (n : BitVec 5)

theorem toNat_alu_add_sext16 : ((alu .add a (sext16 imm) n).toNat : Int) = ((a.toNat : Int) + imm.toInt) % 2 ^ 32 := by
  rw [toNat_alu_add, Int.natCast_mod, Int.natCast_add, toNat_sext16, Nat.cast_pow, Nat.cast_ofNat, Int.add_emod_emod]

theorem toNat_alu_and_zext16 : (alu .and a (zext16 imm) n).toNat = a.toNat &&& imm.toNat := by
  rw [alu, BitVec.toNat_and, toNat_zext16]

theorem toNat_alu_or_zext16 : (alu .or a (zext16 imm) n).toNat = a.toNat ||| imm.toNat := by
  rw [alu, BitVec.toNat_or, toNat_zext16]

theorem alu_slt_sext16 : alu .slt a (sext16 imm) n = if a.toInt < imm.toInt then 1#32 else 0#32 := by
  rw [alu_slt, toInt_sext16]

end AluExtended

/-! ### What an immediate ALU instruction writes and leaves -/

section AluImmediate

variable (op : AluOp) (rt rs : Reg) (b : Word) (s : State)

/-- The destination holds the result for the old value of the source, also where it is the source (D16). -/
theorem aluImmediate_reg_dest : (aluImmediate op rt rs b s).reg rt = alu op (s.reg rs) b 0#5 :=
  State.setReg_reg_same ..

theorem sameButReg_aluImmediate : SameButReg s (aluImmediate op rt rs b s) rt := sameButReg_setReg s rt _

end AluImmediate

/-- Settles O17. -/
theorem addiWritesSignedSum : Obligations.AddiWritesSignedSum :=
  ⟨fun rt rs imm => decodeOfEncode (.addi rt rs imm), fun rt rs imm s =>
    ⟨aluImmediate .add rt rs (sext16 imm) s, rfl, by rw [aluImmediate_reg_dest, toNat_alu_add_sext16],
      sameButReg_aluImmediate ..⟩⟩

/-- Settles O18. -/
theorem andiWritesZeroExtendedAnd : Obligations.AndiWritesZeroExtendedAnd :=
  ⟨fun rt rs imm => decodeOfEncode (.andi rt rs imm), fun rt rs imm s =>
    ⟨aluImmediate .and rt rs (zext16 imm) s, rfl, by rw [aluImmediate_reg_dest, toNat_alu_and_zext16],
      sameButReg_aluImmediate ..⟩⟩

/-- Settles O19. -/
theorem oriWritesZeroExtendedOr : Obligations.OriWritesZeroExtendedOr :=
  ⟨fun rt rs imm => decodeOfEncode (.ori rt rs imm), fun rt rs imm s =>
    ⟨aluImmediate .or rt rs (zext16 imm) s, rfl, by rw [aluImmediate_reg_dest, toNat_alu_or_zext16],
      sameButReg_aluImmediate ..⟩⟩

/-- Settles O20. -/
theorem sltiWritesSignedLess : Obligations.SltiWritesSignedLess :=
  ⟨fun rt rs imm => decodeOfEncode (.slti rt rs imm), fun rt rs imm s =>
    ⟨aluImmediate .slt rt rs (sext16 imm) s, rfl, by rw [aluImmediate_reg_dest, alu_slt_sext16],
      sameButReg_aluImmediate ..⟩⟩

end Sys2Proof.Machine
end

section
/-! PROOFS, family `45_branch.md`: beq and bne (R140 to R142). -/

namespace Sys2Proof.Machine

/-- The branch target lies four bytes per unit of the signed immediate from `pcf`, modulo `2^32` (R140, D13). -/
theorem toNat_branchTarget (pcf : Word) (imm : BitVec 16) :
    ((branchTarget pcf imm).toNat : Int) = ((pcf.toNat : Int) + 4 * imm.toInt) % 2 ^ 32 := by
  have himm := toNat_sext16 imm
  have hadd : (branchTarget pcf imm).toNat = (pcf.toNat + (sext16 imm).toNat * 4 % 2 ^ 32) % 2 ^ 32 := by
    rw [branchTarget, BitVec.toNat_add, BitVec.toNat_shiftLeft, Nat.shiftLeft_eq]
  omega

/-- Writing the pc changes nothing else. -/
theorem sameButPc_setPc (s : State) (v : Word) : SameButPc s (s.setPc v) :=
  ⟨fun _ => rfl, rfl, fun _ => rfl⟩

/-- The comparison of bne (R142). -/
theorem not_equalWords_eq_true {a b : Word} : (!equalWords a b) = true ↔ a ≠ b := by
  rw [Bool.not_eq_true', ← Bool.not_eq_true, equalWords_eq_true]

section BranchIf

variable (taken : Bool) (imm : BitVec 16) (s : State)

theorem toNat_branchIf_pc : ((branchIf taken imm s).pc.toNat : Int) =
    if taken then ((s.pc.toNat : Int) + 4 * imm.toInt) % 2 ^ 32 else (s.pc.toNat : Int) := by
  cases taken
  case false => rfl
  case true => exact toNat_branchTarget s.pc imm

/-- A branch, taken or not, leaves the registers, memory and status (R140). -/
theorem sameButPc_branchIf : SameButPc s (branchIf taken imm s) := by
  rw [branchIf_eq_setPc]
  exact sameButPc_setPc ..

end BranchIf

/-- Settles O31. -/
theorem beqBranchesOnEqual : Obligations.BeqBranchesOnEqual :=
  ⟨fun rs rt imm => decodeOfEncode (.beq rs rt imm), fun rs rt imm s =>
    ⟨branchIf (equalWords (s.reg rs) (s.reg rt)) imm s, rfl, by simp only [toNat_branchIf_pc, equalWords_eq_true],
      sameButPc_branchIf ..⟩⟩

/-- Settles O32: a branch on the negated comparison has the two answers exchanged. -/
theorem bneBranchesOnUnequal : Obligations.BneBranchesOnUnequal :=
  ⟨fun rs rt imm => decodeOfEncode (.bne rs rt imm), fun rs rt imm s =>
    ⟨branchIf (!equalWords (s.reg rs) (s.reg rt)) imm s, rfl,
      by simp only [toNat_branchIf_pc, not_equalWords_eq_true, ite_not],
      sameButPc_branchIf ..⟩⟩

end Sys2Proof.Machine
end

section
/-! PROOFS, family `46_jump.md`: jr, j and jal (R150 to R153). -/

namespace Sys2Proof

/-- A word that agrees with the encoding of jr in every field but `rt`, `rd` and `shamt` decodes to jr (R59, D10). -/
theorem decode_assembleR_jr (rs rt rd : Reg) (shamt : BitVec 5) :
    decode (assembleR 0x00#6 rs rt rd shamt 0x08#6) = .instr (.jr rs) := by
  rw [decode_eq_instr_iff, Instr.usedMask, and_jrMask, opcodeOf_assembleR, rsOf_assembleR, functOf_assembleR, encode]

end Sys2Proof

namespace Sys2Proof.Machine

/-- The mask of the jump target keeps the four high bits of `pcf` (R150). -/
theorem toNat_and_highFour (pcf : Word) : (pcf &&& 0xF0000000#32).toNat = pcf.toNat / 2 ^ 28 * 2 ^ 28 := by
  have hmask : pcf >>> 28 <<< 28 = pcf &&& 0xF0000000#32 := BitVec.shiftLeft_ushiftRight
  rw [← hmask, BitVec.toNat_shiftLeft, BitVec.toNat_ushiftRight, Nat.shiftRight_eq_div_pow, Nat.shiftLeft_eq]
  omega

/-- The field of a jump, shifted by 2, is its value times 4, which fits below bit 28 (R150). -/
theorem toNat_jumpField (target : BitVec 26) : (target.setWidth 32 <<< 2 : Word).toNat = target.toNat * 4 := by
  rw [BitVec.toNat_shiftLeft, BitVec.toNat_setWidth, Nat.shiftLeft_eq]
  omega

/-- The jump target is the four high bits of `pcf` over the field times 4: the two parts of the or have no bit in common,
so it is their sum (R150). -/
theorem toNat_jumpTarget (pcf : Word) (target : BitVec 26) :
    (jumpTarget pcf target).toNat = pcf.toNat / 2 ^ 28 * 2 ^ 28 + target.toNat * 4 := by
  have hfield : target.toNat * 4 < 2 ^ 28 := by omega
  rw [jumpTarget, BitVec.toNat_or, toNat_and_highFour, toNat_jumpField, Nat.mul_comm _ (2 ^ 28),
    Nat.two_pow_add_eq_or_of_lt hfield]

/-- Writing a register and the pc changes nothing else. -/
theorem sameButPcAndReg_setReg_setPc (s : State) (r : Reg) (v w : Word) :
    SameButPcAndReg s ((s.setReg r v).setPc w) r :=
  ⟨fun _ hq => s.setReg_reg_other v hq, rfl, fun _ => rfl⟩

/-- Settles O34. -/
theorem jumpTargetJoinsPcAndField : Obligations.JumpTargetJoinsPcAndField :=
  ⟨fun target => decodeOfEncode (.j target), fun target s =>
    ⟨s.setPc (jumpTarget s.pc target), rfl, toNat_jumpTarget .., sameButPc_setPc ..⟩⟩

/-- Settles O35: the link and the target come from the same `pcf`. -/
theorem jalLinksAndJumps : Obligations.JalLinksAndJumps :=
  ⟨fun target => decodeOfEncode (.jal target), fun target s =>
    ⟨(s.setReg linkReg s.pc).setPc (jumpTarget s.pc target), rfl, State.setReg_reg_same .., toNat_jumpTarget ..,
      sameButPcAndReg_setReg_setPc ..⟩⟩

/-- Settles O33. -/
theorem jrCopiesRegisterToPc : Obligations.JrCopiesRegisterToPc :=
  ⟨decode_assembleR_jr, fun rs s => ⟨s.setPc (s.reg rs), rfl, rfl, sameButPc_setPc ..⟩⟩

end Sys2Proof.Machine
end

section
/-! PROOFS, family `47_halt_and_unrecognized.md`: halt (R160, R171). -/

namespace Sys2Proof.Machine

/-- halt answers the same state with the run ended as `Halted` (R160, D8). -/
theorem exec_halt (s : State) : exec .halt s = .next (s.stop .halted) := rfl

/-- Settles O36: the word is the encoding of halt, and ending the run changes the status alone. -/
theorem haltEndsRun : Obligations.HaltEndsRun :=
  ⟨decodeOfEncode .halt, fun s => ⟨s.stop .halted, exec_halt s, s.stop_status .halted, sameButStatus_stop s .halted⟩⟩

end Sys2Proof.Machine
end

section
/-! PROOFS, family `70_reset_and_hazards.md`: the state after reset (R190) and the loader's contract (R191). -/

namespace Sys2Proof.Machine

variable {s : State} {base : Word} {program ws : List Word}

/-- Settles O52: after reset the run goes on. -/
theorem resetEndExplained : Obligations.ResetEndExplained := State.endExplained_of_running rfl

/-! ### The placed words (R191) -/

/-- Placing words changes no byte outside them. -/
theorem State.byteAt_placeWords_outside {a b : Nat} (h : b < a ∨ a + 4 * ws.length ≤ b) :
    (s.placeWords a ws).mem.byteAt b = s.mem.byteAt b := by
  induction ws generalizing s a with
  | nil => rfl
  | cons w ws ih =>
    rw [List.length_cons] at h
    rw [State.placeWords, ih (by omega), Memory.byteAt_setWord_outside _ _ (by omega)]

/-- A word that lies below the placed ones keeps its value. -/
theorem State.wordAt_placeWords_below {a b : Nat} (h : b + 4 ≤ a) :
    (s.placeWords a ws).mem.wordAt b = s.mem.wordAt b := by
  simp only [Memory.wordAt]
  repeat rw [State.byteAt_placeWords_outside (.inl (by omega))]

/-- Each placed word reads back: those placed after it do not overlap it. -/
theorem State.wordAt_placeWords {a k : Nat} (hk : k < ws.length) :
    (s.placeWords a ws).mem.wordAt (a + 4 * k) = ws[k] := by
  induction ws generalizing s a k with
  | nil => exact absurd hk (Nat.not_lt_zero k)
  | cons w ws ih =>
    rw [State.placeWords]
    cases k with
    | zero => exact (State.wordAt_placeWords_below le_rfl).trans (Memory.wordAt_setWord_same ..)
    | succ k =>
      have haddr : a + 4 * (k + 1) = a + 4 + 4 * k := by omega
      rw [haddr]
      exact ih (Nat.lt_of_succ_lt_succ hk)

theorem State.reg_placeWords {a : Nat} (r : Reg) : (s.placeWords a ws).reg r = s.reg r := by
  simp only [State.reg, (s.placeWords_frame a ws).1]

/-! ### The loader's contract -/

/-- The bound of R191 as a number. -/
theorem programFits_iff {n : Nat} : programFits base n = true ↔ base.toNat + 4 * (n + 1) ≤ 0x100000 :=
  decide_eq_true_iff

theorem State.loadProgram_of_fits (s : State) (h : programFits base program.length = true) :
    s.loadProgram base program = some ((s.placeWords base.toNat (program ++ [haltWord])).setPc base) :=
  if_pos h

theorem State.loadProgram_of_not_fits (s : State) (h : ¬ programFits base program.length = true) :
    s.loadProgram base program = none :=
  if_neg h

/-- Settles O56: the loaded words are the program's and then the halt word. -/
theorem loaderPlacesProgramAndHalt : Obligations.LoaderPlacesProgramAndHalt := by
  intro s base program
  have hlen : (program ++ [haltWord]).length = program.length + 1 := List.length_append
  obtain ⟨-, -, hstatus⟩ := s.placeWords_frame base.toNat (program ++ [haltWord])
  refine ⟨fun h => ⟨_, s.loadProgram_of_fits (programFits_iff.2 h), fun k hk => ?_, ?_, fun a ha => ?_,
    State.reg_placeWords, rfl, hstatus⟩,
    fun h => s.loadProgram_of_not_fits fun hfits => Nat.not_le.2 h (programFits_iff.1 hfits)⟩
  · rw [State.setPc_mem, State.wordAt_placeWords (by omega), List.getElem_append_left hk]
  · rw [State.setPc_mem, State.wordAt_placeWords (by omega), List.getElem_concat_length rfl, haltWord]
  · exact State.byteAt_placeWords_outside (hlen ▸ ha)

end Sys2Proof.Machine
end

section
/-! PROOFS, family `other`: the model's own values of the reset parameters that the spec leaves open (R26, R29, D1, D3). -/

namespace Sys2Proof.Machine

/-- Every register of the model's reset state is 0: `REG_RESET` repeats the one word 0 (D3). -/
theorem State.reset_reg (r : Reg) : State.reset.reg r = 0#32 :=
  (State.resetWith_reg Config.resetPc Config.regReset r).trans (Vector.getElem_replicate r.isLt)

/-- Settles O55. -/
theorem resetParametersChosen : Obligations.ResetParametersChosen :=
  ⟨rfl, by decide, State.reset_reg⟩

end Sys2Proof.Machine
end
